-- ==== Sys2Proof/Word.lean ====
section
/-! DEFINITION. The unit of the program buffer (10_state.md R27). Data cells, addresses and the program
counter are natural numbers, as 00_scope.md R7 says every value of every rule is. -/

namespace Sys2Proof

/-- One byte of the program buffer (R27: "one byte per address"; R40: 8 bits per address). -/
abbrev Byte := BitVec 8

end Sys2Proof
end

