-- ==== Sys2Proof/Syntax.lean ====
section
/-! DEFINITION. The whole instruction set: four instructions with no qualifiers, modifiers or optional
operands (00_scope.md R13). -/

namespace Sys2Proof

/-- The instruction kinds (30_encoding.md R67). -/
inductive Kind where
  | readMem
  | loadConst
  | shiftRight
  | writeMem
deriving DecidableEq, Repr

/-- One constructor per row of `opcode_table.json`. The operands `B`, `C`, `D` are natural numbers in the order of the
assembler text (00_scope.md R9, 30_encoding.md R67, R83); their ranges are checked by `Instr.wf`. -/
inductive Instr where
  /-- `READ_MEM B C`: `MEM[C] <- MEM[B]` (R121). -/
  | readMem (b c : Nat)
  /-- `LOAD_CONST const addr`, `B = const` and `C = addr` (R9, R120): `MEM[C] <- B`. -/
  | loadConst (b c : Nat)
  /-- `SHIFT_RIGHT B C D`: `MEM[MEM[C]] <- rot(MEM[B], MEM[D])` (R140). -/
  | shiftRight (b c d : Nat)
  /-- `WRITE_MEM B C D`: `MEM[B + D] <- MEM[C]` (R122). -/
  | writeMem (b c d : Nat)
deriving DecidableEq, Repr

/-- The kind of an instruction. -/
def Instr.kind : Instr → Kind
  | .readMem _ _ => .readMem
  | .loadConst _ _ => .loadConst
  | .shiftRight _ _ _ => .shiftRight
  | .writeMem _ _ _ => .writeMem

/-- The letters of the operand fields, in the order the encoder checks them (R68, decision D17). -/
inductive Field where
  | b
  | c
  | d
deriving DecidableEq, Repr

end Sys2Proof
end

