-- ==== Sys2Proof/WellFormed.lean ====
section
/-! DEFINITION. Which instructions exist: every operand fits the declared width of its field (30_encoding.md R68). -/

namespace Sys2Proof

/-- Every operand is below `2^width` of its field: 6 bits for an address, 21 for the constant of LOAD_CONST, 12 for the
offset of WRITE_MEM (R68). -/
def Instr.wf : Instr → Bool
  | .readMem b c => decide (b < 64) && decide (c < 64)
  | .loadConst b c => decide (b < 2097152) && decide (c < 64)
  | .shiftRight b c d => decide (b < 64) && decide (c < 64) && decide (d < 64)
  | .writeMem b c d => decide (b < 64) && decide (c < 64) && decide (d < 4096)

end Sys2Proof
end

