-- ==== Sys2Proof/Decode.lean ====
section
/-! DEFINITION. The ISA codec (30_encoding.md): bit fields and byte order, the decoder (R72 to R80), then the encoder
(R67 to R71), both written from the opcode table and the formats R61 to R64. Pure functions with no state (R67). -/

namespace Sys2Proof

/-- `w[hi:lo]`, the unsigned value of bits `hi` down to `lo` (00_scope.md R6): shift, then mask. -/
def bits (w hi lo : Nat) : Nat := (w >>> lo) &&& (2 ^ (hi + 1 - lo) - 1)

/-- `le(bytes)`: the number whose least significant byte is the first of the list (R8). -/
def le : List Byte → Nat
  | [] => 0
  | b :: rest => b.toNat + 256 * le rest

/-- `le_bytes(v, n)`: the `n` bytes of `v`, least significant first (R8). -/
def leBytes (v : Nat) : Nat → List Byte
  | 0 => []
  | n + 1 => BitVec.ofNat 8 v :: leBytes (v / 256) n

/-- `ProgRead(a, n)`: the `n` bytes of the program at `a`, byte `a` first (20_memory.md R41); every caller checks
`a + n <= PROG_LEN` first. -/
def progRead (prog : List Byte) (a n : Nat) : List Byte := (prog.drop a).take n

/-! ## The decoder -/

/-- The two ways a decode fails (R72 (b) and (c)). -/
inductive DecodeError where
  /-- The opcode nibble is not in the four-entry table (R77). -/
  | unknownOpcode (nibble : Nat)
  /-- The opcode is known and fewer bytes remain than its length; `left` is how many remain (R74, R165). -/
  | truncatedInstruction (left : Nat)
deriving DecidableEq, Repr

/-- The opcode map over the nibble `A` (R76): four entries, every other value is illegal (R77). -/
def kindOfOpcode (a : Nat) : Option Kind :=
  if a = 0 then some .readMem
  else if a = 11 then some .loadConst
  else if a = 13 then some .shiftRight
  else if a = 15 then some .writeMem
  else none

/-- The opcode of a kind (the source's table; R61 to R64). -/
def opcodeOf : Kind → Nat
  | .readMem => 0
  | .loadConst => 11
  | .shiftRight => 13
  | .writeMem => 15

/-- The encoded length in bytes (R71, R80). -/
def lengthOf : Kind → Nat
  | .readMem => 2
  | .loadConst => 4
  | .shiftRight => 4
  | .writeMem => 4

/-- The encoded length of an instruction depends on its kind alone (R71). -/
def Instr.length (i : Instr) : Nat := lengthOf i.kind

/-- The opcode nibble of a byte (R73). -/
def opcodeNibble (b : Byte) : Nat := b.toNat &&& 0xF

/-- The conceptual 32-bit word from the integer read: READ_MEM's half-word is its upper half (R74, conflict C5). -/
def conceptualWord (k : Kind) (x : Nat) : Nat :=
  match k with
  | .readMem => x <<< 16
  | .loadConst => x
  | .shiftRight => x
  | .writeMem => x

/-- Field extraction (R75). Bits outside the fields are not looked at (R66, R78). -/
def fieldsOf (k : Kind) (w : Nat) : Instr :=
  match k with
  | .readMem => .readMem (bits w 25 20) (bits w 31 26)
  | .loadConst => .loadConst (bits w 24 4) (bits w 30 25)
  | .shiftRight => .shiftRight (bits w 9 4) (bits w 15 10) (bits w 21 16)
  | .writeMem => .writeMem (bits w 9 4) (bits w 15 10) (bits w 27 16)

/-- The decoder (R72 to R75), total: an instruction, `unknownOpcode` or `truncatedInstruction`. Its domain is
`pc < PROG_LEN`; past it, where no engine step asks, the answer is `truncatedInstruction 0` (DESIGN CHOICE, safe, log 8). -/
def decode (prog : List Byte) (pc : Nat) : Except DecodeError Instr :=
  match prog[pc]? with
  | none => .error (.truncatedInstruction 0)
  | some b0 =>
    match kindOfOpcode (opcodeNibble b0) with
    | none => .error (.unknownOpcode (opcodeNibble b0))
    | some k =>
      if prog.length < pc + lengthOf k then .error (.truncatedInstruction (prog.length - pc))
      else .ok (fieldsOf k (conceptualWord k (le (progRead prog pc (lengthOf k)))))

/-! ## The encoder -/

/-- The first operand that does not fit its field, in the order `B`, `C`, `D` (R68, decision D17). -/
def rangeError? : Instr → Option Field
  | .readMem b c => if 64 ≤ b then some .b else if 64 ≤ c then some .c else none
  | .loadConst b c => if 2097152 ≤ b then some .b else if 64 ≤ c then some .c else none
  | .shiftRight b c d =>
    if 64 ≤ b then some .b else if 64 ≤ c then some .c else if 64 ≤ d then some .d else none
  | .writeMem b c d =>
    if 64 ≤ b then some .b else if 64 ≤ c then some .c else if 4096 ≤ d then some .d else none

/-- The packed 32-bit word `W` (R69, R70): the fields at their offsets, OR'd with the opcode at bits [3:0]. -/
def packedWord : Instr → Nat
  | .readMem b c => 0x0 ||| (b <<< 20) ||| (c <<< 26)
  | .loadConst b c => 0xB ||| (b <<< 4) ||| (c <<< 25)
  | .shiftRight b c d => 0xD ||| (b <<< 4) ||| (c <<< 10) ||| (d <<< 16)
  | .writeMem b c d => 0xF ||| (b <<< 4) ||| (c <<< 10) ||| (d <<< 16)

/-- The integer that goes on the wire: all of `W`, or only its upper half `H` for READ_MEM (R60, R69, R70). -/
def wireWord (i : Instr) : Nat :=
  match i.kind with
  | .readMem => packedWord i >>> 16
  | .loadConst => packedWord i
  | .shiftRight => packedWord i
  | .writeMem => packedWord i

/-- The wire form, little-endian (R46, R69, R70). -/
def wireForm (i : Instr) : List Byte := leBytes (wireWord i) i.length

/-- The encoder (R67, R68): the wire form, or `RangeError` naming the failing field, with no bytes. -/
def encode (i : Instr) : Except Field (List Byte) :=
  match rangeError? i with
  | some f => .error f
  | none => .ok (wireForm i)

/-! ## The host's probe -/

/-- The instruction the decoder reads from a table word of `nbits` bits, laid out in four little-endian bytes with the
bits above `nbits` zero. -/
def decodeTableWord (nbits w : Nat) : Option Instr :=
  match decode (leBytes (w % 2 ^ nbits) 4) 0 with
  | .ok i => some i
  | .error _ => none

end Sys2Proof
end

