-- ==== Sys2Proof/Config.lean ====
section
/-! DEFINITION. The implementation parameters of 00_scope.md R5 that the spec leaves open, as plain data.
The field widths the source fixes stand in the encodings themselves. The spec leaves no value free
(93_implementation_defined.md: "No behaviour is a draw"), so there is no opaque constant here. -/

namespace Sys2Proof

/-- The open parameters of the machine (R5, decisions D1 and D2), fixed for the whole life of a machine. -/
structure Config where
  /-- `MEM_SIZE`: the number of cells of the data memory, legal from 1 up (D2). -/
  memSize : Nat
  /-- `CELL_W`: the width of one cell in bits, legal from 21 up (D1). -/
  cellWidth : Nat
deriving DecidableEq, Repr

/-- The defaults of R5: `MEM_SIZE = 1024`, `CELL_W = 32`. -/
def Config.standard : Config := { memSize := 1024, cellWidth := 32 }

/-- `PC_W` (R5, decision D11): no reachable program counter needs more bits (R21). -/
def Config.pcWidth : Nat := 32

/-- A load is accepted only if `PROG_LEN` is below this bound (R5, R193, decision D11). -/
def Config.progLenLimit : Nat := 2 ^ 31

end Sys2Proof
end

