-- ==== Sys2Proof/Machine/State.lean ====
section
/-! DEFINITION. The architectural state as plain data (10_state.md), the faults and refusals, and reset.
No general registers (R20), no flags and no other register file (R24), no hidden state (R28). -/

namespace Sys2Proof.Machine

/-- The run states (10_state.md R25). -/
inductive RunState where
  /-- After reset; the host may load the program buffer. -/
  | idle
  /-- Entered by the host's start, left only by the step function. -/
  | running
  /-- The program ran to its end. -/
  | halted
  /-- A fault stopped the engine. -/
  | faulted
deriving DecidableEq, Repr

/-- What `status.cause` can hold; the code numbers are `Cause.code` (60_exceptions.md R163). -/
inductive Cause where
  /-- Code 0: the run state is not FAULTED. -/
  | noFault
  | unknownOpcode
  | truncatedInstruction
  | outOfBounds
  | shiftAmount
deriving DecidableEq, Repr

/-- The status record (R25): no instruction reads or writes it. -/
structure Status where
  /-- `status.run_state` -/
  runState : RunState
  /-- `status.cause`, `noFault` unless FAULTED. -/
  cause : Cause
  /-- `status.info`, 0 unless FAULTED; its meaning depends on the cause (R168). -/
  info : Nat
deriving DecidableEq, Repr

/-- The data memory `MEM` (R26) as the list of its nonzero cells, (address, value), addresses strictly rising: its
canonical form is `Memory.wf`. A cell that is not listed holds 0 (R30, R43). A value is a natural number (R7, R26); no
rule ever narrows one (log 2, log 9). -/
abbrev Memory := List (Nat × Nat)

/-- The whole machine (R12): `pc`, `MEM` and `status`, and beside them the parameters of a run, which no step changes. -/
structure State where
  /-- `pc`: the byte address in `PROG` of the next instruction (R21); a natural number (D11, log 1). -/
  pc : Nat
  /-- `MEM` (R26). -/
  mem : Memory
  /-- `status` (R25). -/
  status : Status
  /-- `PROG` (R27): the loaded bytes, or `none` before a load (R30, R191); a parameter of the run (log 4). -/
  prog : Option (List Byte)
  /-- `MEM_SIZE` and `CELL_W` (R5); parameters of the machine (log 3). -/
  config : Config
deriving DecidableEq, Repr

/-- The four faults of the engine with the number each records (60_exceptions.md R163). Raised inside a step; the step
then answers the NEXT state in which the fault is recorded (R172, `takeFault`), so `Host.Outcome.fault` is never
answered. Safe: the machine goes nowhere from that state. -/
inductive Fault where
  /-- Raised by fetch (R164): the low nibble of `PROG[pc]` is in no row of the table. Safe. -/
  | unknownOpcode (nibble : Nat)
  /-- Raised by fetch (R165): the instruction's bytes pass the end of the program; `left` bytes remain. Safe. -/
  | truncatedInstruction (left : Nat)
  /-- Raised by a data access (R166): the address is not below `MEM_SIZE`. Safe. -/
  | outOfBounds (address : Nat)
  /-- Raised by SHIFT_RIGHT (R167): the rotate amount is above 16. Safe. -/
  | shiftAmount (amount : Nat)
deriving DecidableEq, Repr

/-- Operations the spec does not offer. No instruction's meaning ever answers one. -/
inductive Refusal where
  /-- An arm of `exec` with no meaning; no arm of this model answers it. Safe. -/
  | notModelled (mnemonic : String)
  /-- Raised by `step` outside RUNNING: the engine has no step there (40_fetch_execute.md R100). Safe. -/
  | noStep (runState : RunState)
  /-- Raised by `start`, and by `step` in a RUNNING state no host operation produces: no program has been loaded
  (R30, U12, log 7). Safe. -/
  | programNotLoaded
  /-- Raised by `powerOn`: `MEM_SIZE` below 1 or `CELL_W` below 21 (D1, D2, log 16). Safe. -/
  | illegalConfig
  /-- Raised by `load` and `start` outside IDLE (R193, R194, R195). Safe. -/
  | notIdle (runState : RunState)
  /-- Raised by `load`: the byte string has `2^31` bytes or more (R193, D11). Safe. -/
  | programTooLong (length : Nat)
  /-- Raised by `readStatus` while RUNNING: the host has no move then (R195, U13). Safe. -/
  | runInProgress
  /-- Raised by `dump` outside HALTED (R174, R196, U16). Safe. -/
  | notHalted (runState : RunState)
  /-- Raised by `dump` for a range that reaches `MEM_SIZE` (R196, U15, log 12). Safe. -/
  | dumpRange (last : Nat)
deriving DecidableEq, Repr

/-- The state after reset of a machine with the given parameters (R30, R190): every cell 0, `pc` 0, IDLE with a clear
status, no program loaded. -/
def State.resetWith (config : Config) : State :=
  { pc := 0
    mem := []
    status := { runState := .idle, cause := .noFault, info := 0 }
    prog := none
    config := config }

/-- The state after reset with the default parameters of R5. -/
def State.reset : State := State.resetWith Config.standard

end Sys2Proof.Machine
end

