-- ==== Sys2Proof/Machine/Flags.lean ====
section
/-! DEFINITION. The machine has no flags and no flag computation (10_state.md R24). What stands in their place is the
status record: what a fault writes into it (60_exceptions.md R163, R168). -/

namespace Sys2Proof.Machine

/-- The numeric code of a cause (R163, decision D8). -/
def Cause.code : Cause → Nat
  | .noFault => 0
  | .unknownOpcode => 1
  | .truncatedInstruction => 2
  | .outOfBounds => 3
  | .shiftAmount => 4

/-- The cause a fault records (R163). -/
def Fault.cause : Fault → Cause
  | .unknownOpcode _ => .unknownOpcode
  | .truncatedInstruction _ => .truncatedInstruction
  | .outOfBounds _ => .outOfBounds
  | .shiftAmount _ => .shiftAmount

/-- The number a fault records: the nibble, the bytes left, the address or the amount (R163, R168). -/
def Fault.info : Fault → Nat
  | .unknownOpcode nibble => nibble
  | .truncatedInstruction left => left
  | .outOfBounds address => address
  | .shiftAmount amount => amount

end Sys2Proof.Machine
end

