-- ==== Sys2Proof/Machine/Ops.lean ====
section
/-! DEFINITION. The operations every meaning is written over: the data memory and its two primitives (20_memory.md R43,
R44), the advance of `pc`, the end of the program, and fault entry, written once (60_exceptions.md R172). -/

namespace Sys2Proof.Machine

/-! ## The data memory -/

/-- The value of a cell; a cell that is not listed holds its reset value 0 (R43). -/
def Memory.get : Memory → Nat → Nat
  | [], _ => 0
  | (b, w) :: rest, a => if a = b then w else Memory.get rest a

/-- Set one cell, keeping the canonical form: a cell set to 0 leaves the list (log 9). -/
def Memory.set : Memory → Nat → Nat → Memory
  | [], a, v => if v = 0 then [] else [(a, v)]
  | (b, w) :: rest, a, v =>
    if a < b then (if v = 0 then (b, w) :: rest else (a, v) :: (b, w) :: rest)
    else if a = b then (if v = 0 then rest else (a, v) :: rest)
    else (b, w) :: Memory.set rest a v

/-- Every listed address is at or above `n`, addresses strictly rise and no value is 0. -/
def Memory.wfFrom : Nat → Memory → Bool
  | _, [] => true
  | n, (b, w) :: rest => decide (n ≤ b) && decide (w ≠ 0) && Memory.wfFrom (b + 1) rest

/-- The canonical form: equal memories are equal lists. -/
def Memory.wf (m : Memory) : Bool := Memory.wfFrom 0 m

/-- The current value of cell `a`, for observation; `memRead` is the checked access. -/
def State.cell (s : State) (a : Nat) : Nat := Memory.get s.mem a

/-- `MemRead(a, 1)` (R43): the cell's value, or `OutOfBounds(a)` when `a >= MEM_SIZE`; no side effect. -/
def memRead (a : Nat) (s : State) : Except Fault Nat :=
  if a < s.config.memSize then .ok (s.cell a) else .error (.outOfBounds a)

/-- `MemWrite(a, 1, v)` (R44): sets cell `a` to `v` and nothing else, or `OutOfBounds(a)` when `a >= MEM_SIZE`. -/
def memWrite (a v : Nat) (s : State) : Except Fault State :=
  if a < s.config.memSize then .ok { s with mem := Memory.set s.mem a v } else .error (.outOfBounds a)

/-! ## The program buffer -/

/-- `PROG_LEN`; 0 where nothing is loaded. -/
def State.progLen (s : State) : Nat :=
  match s.prog with
  | none => 0
  | some bytes => bytes.length

/-! ## The ends of a step -/

/-- `pc <- pc + n` (R22, R104). -/
def advance (n : Nat) (s : State) : State := { s with pc := s.pc + n }

/-- The end of the program (40_fetch_execute.md R101): `run_state <- HALTED`, nothing else changes. -/
def halt (s : State) : State := { s with status := { s.status with runState := .halted } }

/-- Fault entry (R172): the status records the fault; `pc` and `MEM` are left unchanged, and control goes nowhere. There
is no return beside it: FAULTED is terminal and only reset leaves it (R175). -/
def takeFault (f : Fault) (s : State) : State :=
  { s with status := { runState := .faulted, cause := f.cause, info := f.info } }

/-- How an effect started at `s` ends its step: with the state it computed, or with the fault it raised taken in `s`
itself, so that a faulting instruction changes nothing but the status (R172, R173). -/
def settle (s : State) (effect : Except Fault State) : Host.Outcome State Fault Refusal :=
  match effect with
  | .ok t => .next t
  | .error f => .next (takeFault f s)

end Sys2Proof.Machine
end

