-- ==== Sys2Proof/Machine/Operands.lean ====
section
/-! DEFINITION. The addressing modes of the ISA, all of them (41_data_movement.md R124). -/

namespace Sys2Proof.Machine

/-- (a) Immediate: the constant of LOAD_CONST is the field value itself, zero-extended (R120, R124). -/
def immediate (b : Nat) : Nat := b

/-- (b) Direct: the field value is the address of the cell (R124). -/
def direct (field : Nat) : Nat := field

/-- (c) Base plus offset, both from the instruction: the exact sum, reduced modulo nothing; no cell is read to form it
(R123, R124). -/
def baseOffset (b d : Nat) : Nat := b + d

/-- (d) Memory-indirect: the address is the content of cell `c` (R124, R140). -/
def indirect (c : Nat) (s : State) : Except Fault Nat := memRead (direct c) s

end Sys2Proof.Machine
end

