-- ==== Sys2Proof/Machine/DataMovement.lean ====
section
/-! DEFINITION. LOAD_CONST, READ_MEM and WRITE_MEM (41_data_movement.md R120 to R122). Every read comes before the write
(70_reset_and_hazards.md R199) and the advance of `pc` after it (R22). -/

namespace Sys2Proof.Machine

/-- LOAD_CONST (R120): `MemWrite(C, 1, B)`, then `pc <- pc + 4`. -/
def execLoadConst (b c : Nat) (s : State) : Host.Outcome State Fault Refusal :=
  settle s do
    let t ← memWrite (direct c) (immediate b) s
    pure (advance 4 t)

/-- READ_MEM (R121): reads cell `B`, writes cell `C`, then `pc <- pc + 2`. -/
def execReadMem (b c : Nat) (s : State) : Host.Outcome State Fault Refusal :=
  settle s do
    let v ← memRead (direct b) s
    let t ← memWrite (direct c) v s
    pure (advance 2 t)

/-- WRITE_MEM (R122): reads cell `C`, writes cell `B + D`, then `pc <- pc + 4`; the content of cell `B` plays no part. -/
def execWriteMem (b c d : Nat) (s : State) : Host.Outcome State Fault Refusal :=
  settle s do
    let v ← memRead (direct c) s
    let t ← memWrite (baseOffset b d) v s
    pure (advance 4 t)

end Sys2Proof.Machine
end

