-- ==== Sys2Proof/Machine/Rotate.lean ====
section
/-! DEFINITION. SHIFT_RIGHT (42_rotate.md R140 to R148). The formula is normative, not the name (90_conflicts.md C2). -/

namespace Sys2Proof.Machine

/-- The result function on natural numbers (R141), for `s <= 16`: only the second term is masked. -/
def rot (v s : Nat) : Nat := (v >>> s) ||| ((v <<< (16 - s)) &&& 0xFFFF)

/-- `rot` behind its guard: an amount above 16 raises `ShiftAmount` (R146). -/
def rotate (v s : Nat) : Except Fault Nat :=
  if 16 < s then .error (.shiftAmount s) else .ok (rot v s)

/-- SHIFT_RIGHT (R140): value from cell `B`, destination address from cell `C`, amount from cell `D`, all read before the
write to cell `MEM[C]`; then `pc <- pc + 4`. -/
def execShiftRight (b c d : Nat) (s : State) : Host.Outcome State Fault Refusal :=
  settle s do
    let v ← memRead (direct b) s
    let dst ← indirect c s
    let amount ← memRead (direct d) s
    let r ← rotate v amount
    let t ← memWrite dst r s
    pure (advance 4 t)

end Sys2Proof.Machine
end

