-- ==== Sys2Proof/Machine/Dispatch.lean ====
section
/-! DEFINITION. Dispatch (40_fetch_execute.md R103): one arm per instruction. -/

namespace Sys2Proof.Machine

def exec (i : Instr) (s : State) : Host.Outcome State Fault Refusal :=
  match i with
  | .readMem b c => Sys2Proof.Machine.execReadMem b c s
  | .loadConst b c => Sys2Proof.Machine.execLoadConst b c s
  | .shiftRight b c d => Sys2Proof.Machine.execShiftRight b c d s
  | .writeMem b c d => Sys2Proof.Machine.execWriteMem b c d s

end Sys2Proof.Machine
end

