-- ==== Sys2Proof/Machine/Fetch.lean ====
section
/-! DEFINITION. The front half of a step (40_fetch_execute.md R101, R102): the end test, the fetch and the decode. -/

namespace Sys2Proof.Machine

/-- What fetch finds at `pc`. -/
inductive Fetched where
  /-- `pc >= PROG_LEN` (R101). -/
  | endOfProgram
  /-- The step ends here with a fault (R102). -/
  | bad (f : Fault)
  /-- A whole instruction. -/
  | instruction (i : Instr)
deriving DecidableEq, Repr

/-- The engine's fault for a decode error (R164, R165). -/
def faultOfDecode : DecodeError → Fault
  | .unknownOpcode nibble => .unknownOpcode nibble
  | .truncatedInstruction left => .truncatedInstruction left

/-- The end test comes before any fetch; then `UnknownOpcode`, then `TruncatedInstruction` (R101, R102, R170). -/
def fetch (prog : List Byte) (pc : Nat) : Fetched :=
  if prog.length ≤ pc then .endOfProgram
  else
    match decode prog pc with
    | .error e => .bad (faultOfDecode e)
    | .ok i => .instruction i

/-- `bytes` laid over `prog` at byte address `pc`, with zero bytes up to `pc` where the program is shorter. -/
def placeAt (prog : List Byte) (pc : Nat) (bytes : List Byte) : List Byte :=
  (prog ++ List.replicate (pc - prog.length) 0).take pc ++ bytes ++ prog.drop (pc + bytes.length)

/-- Load and start in one, for the host's probe: the word's four bytes laid at `pc`, and the engine RUNNING with a clear
status (log 10). -/
def placeWord (nbits w : Nat) (s : State) : State :=
  { s with
    prog := some (placeAt (s.prog.getD []) s.pc (leBytes (w % 2 ^ nbits) 4))
    status := { runState := .running, cause := .noFault, info := 0 } }

end Sys2Proof.Machine
end

