-- ==== Sys2Proof/Machine/Step.lean ====
section
/-! DEFINITION. The step function of the engine (40_fetch_execute.md R100). -/

namespace Sys2Proof.Machine

/-- One step: the end of the program is detected, or a fault is taken, or one whole instruction executes (R100). Outside
RUNNING there is no step (R100, R175). -/
def step (s : State) : Host.Outcome State Fault Refusal :=
  match s.status.runState with
  | .idle => .refused (.noStep .idle)
  | .halted => .refused (.noStep .halted)
  | .faulted => .refused (.noStep .faulted)
  | .running =>
    match s.prog with
    | none => .refused .programNotLoaded
    | some prog =>
      match fetch prog s.pc with
      | .endOfProgram => .next (halt s)
      | .bad f => .next (takeFault f s)
      | .instruction i => exec i s

/-- The host's probe: the table word stands where the next step fetches, in a started engine (log 10). -/
def State.withFetchWord (s : State) (nbits w : Nat) : State := placeWord nbits w s

end Sys2Proof.Machine
end

