-- ==== Sys2Proof/Machine/Assembler.lean ====
section
/-! DEFINITION. The assembler's text form (30_encoding.md R81 to R89), from a text, a list of characters, to a binary and
an emission log, or the first error. -/

namespace Sys2Proof.Machine

/-- The errors of an assembly (60_exceptions.md R160 to R162). -/
inductive AsmError where
  /-- The first token is no mnemonic (R85). -/
  | unknownInstruction
  /-- A wrong operand count or an operand that is no number (R85). -/
  | parseError
  /-- An operand that does not fit its field; the first in the order `B`, `C`, `D` (R68, R161). -/
  | rangeError (field : Field)
deriving DecidableEq, Repr

/-- The first failing line, counted from 1 with skipped lines counted, and its error (R85, R162, log 14). -/
structure AsmFailure where
  line : Nat
  error : AsmError
deriving DecidableEq, Repr

/-- One record of the emission log (R89): the opcode's number as `A`, the operands, the bytes written (log 17). -/
structure LogRecord where
  a : Nat
  b : Nat
  c : Nat
  d : Option Nat
  bytes : List Byte
deriving DecidableEq, Repr

/-- A successful assembly: the binary and the log, both complete (R87, R88, R89). -/
structure Assembly where
  binary : List Byte
  log : List LogRecord
deriving DecidableEq, Repr

/-! ## Lines and tokens -/

/-- Cut a text at every character `p` marks; the marked characters are dropped. -/
def splitWhere (p : Char → Bool) : List Char → List (List Char)
  | [] => [[]]
  | ch :: rest =>
    if p ch then [] :: splitWhere p rest
    else
      match splitWhere p rest with
      | [] => [[ch]]
      | piece :: pieces => (ch :: piece) :: pieces

/-- The end of a line: line feed (DESIGN CHOICE, log 13). -/
def isLineEnd (ch : Char) : Bool := ch == '\n'

/-- Whitespace between tokens: space, tab, carriage return (DESIGN CHOICE, log 13). -/
def isSpace (ch : Char) : Bool := ch == ' ' || ch == '\t' || ch == '\r'

/-- The lines of a text (R81). -/
def lines (text : List Char) : List (List Char) := splitWhere isLineEnd text

/-- The tokens of a line (R81): its pieces between whitespace, empty pieces dropped. -/
def tokens (line : List Char) : List (List Char) := (splitWhere isSpace line).filter (fun t => !t.isEmpty)

/-! ## Operands -/

/-- The value of a digit in bases 10 and 16, letters of either case (R84). -/
def digitValue (base : Nat) (ch : Char) : Option Nat :=
  let n := ch.toNat
  let v :=
    if 48 ≤ n ∧ n ≤ 57 then n - 48
    else if 65 ≤ n ∧ n ≤ 70 then n - 55
    else if 97 ≤ n ∧ n ≤ 102 then n - 87
    else base
  if v < base then some v else none

/-- A run of digits, most significant first, continuing the value `acc`. -/
def digitsFrom (base acc : Nat) : List Char → Option Nat
  | [] => some acc
  | ch :: rest =>
    match digitValue base ch with
    | none => none
    | some v => digitsFrom base (acc * base + v) rest

/-- One or more digits. -/
def digits (base : Nat) : List Char → Option Nat
  | [] => none
  | ch :: rest => digitsFrom base 0 (ch :: rest)

/-- A numeric token (R84): decimal digits, or `0x` or `0X` and hexadecimal digits; anything else is not numeric. -/
def number : List Char → Option Nat
  | '0' :: 'x' :: rest => digits 16 rest
  | '0' :: 'X' :: rest => digits 16 rest
  | token => digits 10 token

/-- All the tokens as numbers, or `none` if one of them is not numeric. -/
def numbers : List (List Char) → Option (List Nat)
  | [] => some []
  | token :: rest =>
    match number token, numbers rest with
    | some n, some ns => some (n :: ns)
    | _, _ => none

/-! ## Statements -/

/-- The mnemonic of a kind, spelled exactly (R83, D15). -/
def mnemonic : Kind → List Char
  | .readMem => ['R', 'E', 'A', 'D', '_', 'M', 'E', 'M']
  | .loadConst => ['L', 'O', 'A', 'D', '_', 'C', 'O', 'N', 'S', 'T']
  | .shiftRight => ['S', 'H', 'I', 'F', 'T', '_', 'R', 'I', 'G', 'H', 'T']
  | .writeMem => ['W', 'R', 'I', 'T', 'E', '_', 'M', 'E', 'M']

/-- The kind a mnemonic names. -/
def kindOfMnemonic (token : List Char) : Option Kind :=
  [Kind.readMem, .loadConst, .shiftRight, .writeMem].find? (fun k => mnemonic k == token)

/-- How many operands a statement has (R83). -/
def operandCount : Kind → Nat
  | .readMem => 2
  | .loadConst => 2
  | .shiftRight => 3
  | .writeMem => 3

/-- The statement with the given operands, in the order `B`, `C`, `D` (R83). -/
def statement : Kind → List Nat → Option Instr
  | .readMem, [b, c] => some (.readMem b c)
  | .loadConst, [b, c] => some (.loadConst b c)
  | .shiftRight, [b, c, d] => some (.shiftRight b c d)
  | .writeMem, [b, c, d] => some (.writeMem b c d)
  | _, _ => none

/-- An instruction line (R85, D17): mnemonic, then operand count, then numeric form. -/
def parseStatement (name : List Char) (operands : List (List Char)) : Except AsmError Instr :=
  match kindOfMnemonic name with
  | none => .error .unknownInstruction
  | some k =>
    if operands.length ≠ operandCount k then .error .parseError
    else
      match numbers operands with
      | none => .error .parseError
      | some ns =>
        match statement k ns with
        | none => .error .parseError
        | some i => .ok i

/-- A comment line: its first non-whitespace character is `#` (R82, D15). -/
def isComment (token : List Char) : Bool := token.head? == some '#'

/-- One line (R81, R82): skipped when blank or a comment, else one instruction or an error. -/
def parseLine (line : List Char) : Except AsmError (Option Instr) :=
  match tokens line with
  | [] => .ok none
  | name :: operands =>
    if isComment name then .ok none
    else
      match parseStatement name operands with
      | .error e => .error e
      | .ok i => .ok (some i)

/-- The log record of an instruction and its bytes (R89). -/
def logRecord (i : Instr) (bytes : List Byte) : LogRecord :=
  match i with
  | .readMem b c => { a := opcodeOf .readMem, b := b, c := c, d := none, bytes := bytes }
  | .loadConst b c => { a := opcodeOf .loadConst, b := b, c := c, d := none, bytes := bytes }
  | .shiftRight b c d => { a := opcodeOf .shiftRight, b := b, c := c, d := some d, bytes := bytes }
  | .writeMem b c d => { a := opcodeOf .writeMem, b := b, c := c, d := some d, bytes := bytes }

/-- One line through the parser and the encoder, the range check last (R85): its record, if it has one. -/
def assembleLine (line : List Char) : Except AsmError (Option LogRecord) :=
  match parseLine line with
  | .error e => .error e
  | .ok none => .ok none
  | .ok (some i) =>
    match encode i with
    | .error f => .error (.rangeError f)
    | .ok bytes => .ok (some (logRecord i bytes))

/-- The lines in input order, numbered from `n`; the first failing line decides the error (R85). -/
def assembleLines (n : Nat) : List (List Char) → Except AsmFailure (List LogRecord)
  | [] => .ok []
  | line :: rest =>
    match assembleLine line with
    | .error e => .error { line := n, error := e }
    | .ok none => assembleLines (n + 1) rest
    | .ok (some r) =>
      match assembleLines (n + 1) rest with
      | .error e => .error e
      | .ok rs => .ok (r :: rs)

/-- The assembler: the concatenation of the wire forms and the log, or the error and nothing else (R85, R87, R88). -/
def assemble (text : List Char) : Except AsmFailure Assembly :=
  match assembleLines 1 (lines text) with
  | .error e => .error e
  | .ok log => .ok { binary := log.flatMap LogRecord.bytes, log := log }

end Sys2Proof.Machine
end

