-- ==== Sys2Proof/Machine/HostPort.lean ====
section
/-! DEFINITION. What the host can do to the machine (70_reset_and_hazards.md R190 to R196, 60_exceptions.md R174), and a
run (40_fetch_execute.md R108). An operation the spec does not offer is refused by name and changes nothing (log 11). -/

namespace Sys2Proof.Machine

/-- A legal configuration: `MEM_SIZE` from 1 up, `CELL_W` from 21 up (R5, D1, D2). -/
def legalConfig (c : Config) : Bool := decide (1 ≤ c.memSize) && decide (21 ≤ c.cellWidth)

/-- A fresh machine with the given parameters, in its reset state; other parameters are refused (D1, D2, log 16). -/
def powerOn (c : Config) : Except Refusal State :=
  if legalConfig c then .ok (State.resetWith c) else .error .illegalConfig

/-- Reset (R190): from any run state to the one reset state; the parameters of the machine stay (log 19). -/
def resetMachine (s : State) : State := State.resetWith s.config

/-- Load (R193): only in IDLE, any byte string shorter than `2^31`, put into the program buffer unchanged. -/
def load (bytes : List Byte) (s : State) : Except Refusal State :=
  if s.status.runState ≠ .idle then .error (.notIdle s.status.runState)
  else if bytes.length < Config.progLenLimit then .ok { s with prog := some bytes }
  else .error (.programTooLong bytes.length)

/-- Start (R194): IDLE to RUNNING and nothing else; not offered before a load (R30, U12). -/
def start (s : State) : Except Refusal State :=
  if s.status.runState ≠ .idle then .error (.notIdle s.status.runState)
  else
    match s.prog with
    | none => .error .programNotLoaded
    | some _ => .ok { s with status := { s.status with runState := .running } }

/-- Reset, load and start: the state in which a run begins (R108). -/
def boot (bytes : List Byte) (s : State) : Except Refusal State := do
  let loaded ← load bytes (resetMachine s)
  start loaded

/-- Up to `k` steps, ending where there is no further step (R108). -/
def run : Nat → State → State
  | 0, s => s
  | k + 1, s =>
    match step s with
    | .next t => run k t
    | .fault _ => s
    | .refused _ => s

/-- The greatest number of steps a run takes (40_fetch_execute.md R105). -/
def stepBound (s : State) : Nat := s.progLen / 2 + 1

/-- The host reads `status` and `pc` (R174), at any time but during a run (R195). -/
def readStatus (s : State) : Except Refusal (Status × Nat) :=
  if s.status.runState = .running then .error .runInProgress else .ok (s.status, s.pc)

/-- The cells `first`, `first + 1`, … , `n` of them, each with its address. -/
def cellsFrom (s : State) (first : Nat) : Nat → List (Nat × Nat)
  | 0 => []
  | n + 1 => (first, s.cell first) :: cellsFrom s (first + 1) n

/-- Dump (R196): the mapping from each address of the inclusive range to its value, in HALTED only; the empty mapping for
`first > last`; a range that reaches `MEM_SIZE` is refused, also when it is empty (DESIGN CHOICE, safe, log 12). -/
def dump (first last : Nat) (s : State) : Except Refusal (List (Nat × Nat)) :=
  if s.status.runState ≠ .halted then .error (.notHalted s.status.runState)
  else if s.config.memSize ≤ last then .error (.dumpRange last)
  else .ok (cellsFrom s first (last + 1 - first))

end Sys2Proof.Machine
end

