-- ==== Sys2Proof/Safety.lean ====
section
/-! DEFINITION. The words claims are stated in: what a completed instruction and a fault leave, the invariant of the
machine, and the states it can reach. -/

namespace Sys2Proof.Machine

/-! ## What a step leaves -/

/-- `t` is `s` after one whole instruction: cell `dst` holds `v`, every other cell reads as before, `pc` has advanced by
`n`, and status, program and configuration are untouched (40_fetch_execute.md R103, R104). -/
def WritesCell (s : State) (dst v n : Nat) (t : State) : Prop :=
  t.cell dst = v ∧ (∀ a, a ≠ dst → t.cell a = s.cell a) ∧
    t.pc = s.pc + n ∧ t.status = s.status ∧ t.prog = s.prog ∧ t.config = s.config

/-- `t` is `s` with a fault recorded: run state FAULTED, the given cause and number, and `pc`, `MEM`, program and
configuration unchanged (60_exceptions.md R172). -/
def FaultsWith (s : State) (cause : Cause) (info : Nat) (t : State) : Prop :=
  t.status = { runState := .faulted, cause := cause, info := info } ∧
    t.pc = s.pc ∧ t.mem = s.mem ∧ t.prog = s.prog ∧ t.config = s.config

/-- The cell an instruction writes, computed in the state it starts in (20_memory.md R42). -/
def destination (i : Instr) (s : State) : Nat :=
  match i with
  | .readMem _ c => direct c
  | .loadConst _ c => direct c
  | .shiftRight _ c _ => s.cell (direct c)
  | .writeMem b _ d => baseOffset b d

/-- The value an instruction writes when it completes, computed in the state it starts in (R120 to R122, R140). -/
def resultOf (i : Instr) (s : State) : Nat :=
  match i with
  | .readMem b _ => s.cell b
  | .loadConst b _ => b
  | .shiftRight b _ d => rot (s.cell b) (s.cell d)
  | .writeMem _ c _ => s.cell c

/-- The greatest address a kind can write, in a state whose cells are below `2^21` (R42). -/
def lastWritable : Kind → Nat
  | .readMem => 63
  | .loadConst => 63
  | .shiftRight => 2 ^ 21 - 1
  | .writeMem => 4158

/-! ## Operands by name, for statements about the encoder -/

/-- The value an instruction carries under a field letter. -/
def operandOf : Instr → Field → Option Nat
  | .readMem b _, .b => some b
  | .readMem _ c, .c => some c
  | .readMem _ _, .d => none
  | .loadConst b _, .b => some b
  | .loadConst _ c, .c => some c
  | .loadConst _ _, .d => none
  | .shiftRight b _ _, .b => some b
  | .shiftRight _ c _, .c => some c
  | .shiftRight _ _ d, .d => some d
  | .writeMem b _ _, .b => some b
  | .writeMem _ c _, .c => some c
  | .writeMem _ _ d, .d => some d

/-- The declared width of a field (the source's opcode table; 0 where the kind has no such field). -/
def widthOf : Kind → Field → Nat
  | .readMem, .b => 6
  | .readMem, .c => 6
  | .readMem, .d => 0
  | .loadConst, .b => 21
  | .loadConst, .c => 6
  | .loadConst, .d => 0
  | .shiftRight, .b => 6
  | .shiftRight, .c => 6
  | .shiftRight, .d => 6
  | .writeMem, .b => 6
  | .writeMem, .c => 6
  | .writeMem, .d => 12

/-- The place of a field in the order of the encoder's checks (R68, D17). -/
def fieldRank : Field → Nat
  | .b => 0
  | .c => 1
  | .d => 2

/-- Every operand of `i` whose letter comes before `f` fits its field. -/
def FitsBefore (i : Instr) (f : Field) : Prop :=
  ∀ g v, fieldRank g < fieldRank f → operandOf i g = some v → v < 2 ^ widthOf i.kind g

/-- The lowest bit of the wire word that belongs to no field: reserved bits stand from here up (R66). -/
def reservedFrom : Kind → Nat
  | .readMem => 16
  | .loadConst => 31
  | .shiftRight => 22
  | .writeMem => 28

/-- How many reserved bits a kind's wire form has (R66). -/
def reservedCount : Kind → Nat
  | .readMem => 0
  | .loadConst => 1
  | .shiftRight => 10
  | .writeMem => 4

/-! ## The invariant -/

/-- Every listed cell lies below `MEM_SIZE` and holds a value below `2^21` (R26, R29). -/
def cellsOk (s : State) : Bool :=
  s.mem.all (fun cell => decide (cell.1 < s.config.memSize) && decide (cell.2 < 2 ^ 21))

/-- `pc` is even and at most `PROG_LEN` (R23). -/
def pcOk (s : State) : Bool := decide (s.pc % 2 = 0) && decide (s.pc ≤ s.progLen)

/-- The number a fault records fits its cause (the table of R163). -/
def recordOk (memSize : Nat) (cause : Cause) (info : Nat) : Bool :=
  match cause with
  | .noFault => false
  | .unknownOpcode => decide (info < 16) && (kindOfOpcode info).isNone
  | .truncatedInstruction => decide (1 ≤ info) && decide (info ≤ 3)
  | .outOfBounds => decide (memSize ≤ info)
  | .shiftAmount => decide (16 < info)

/-- Cause and number are 0 unless FAULTED, and then as the table of R163 says (R25, R163). -/
def statusOk (s : State) : Bool :=
  if s.status.runState = .faulted then recordOk s.config.memSize s.status.cause s.status.info
  else decide (s.status.cause = .noFault) && decide (s.status.info = 0)

/-- A program is loaded outside IDLE and is shorter than `2^31` bytes; in IDLE `pc` is 0; HALTED means `pc = PROG_LEN`
(R23, R30, R193, R194). -/
def programOk (s : State) : Bool :=
  decide (s.progLen < Config.progLenLimit) &&
    match s.status.runState with
    | .idle => decide (s.pc = 0)
    | .running => s.prog.isSome
    | .halted => s.prog.isSome && decide (s.pc = s.progLen)
    | .faulted => s.prog.isSome

/-- The invariant of the machine. -/
def State.inv (s : State) : Bool :=
  legalConfig s.config && Memory.wf s.mem && cellsOk s && pcOk s && statusOk s && programOk s

/-- The states the machine can be in: from power on, by the host's operations and by steps. -/
inductive Reachable : State → Prop where
  | powerOn {c : Config} {s : State} (h : powerOn c = .ok s) : Reachable s
  | reset {s : State} (hs : Reachable s) : Reachable (resetMachine s)
  | load {s t : State} {bytes : List Byte} (hs : Reachable s) (h : load bytes s = .ok t) : Reachable t
  | start {s t : State} (hs : Reachable s) (h : start s = .ok t) : Reachable t
  | step {s t : State} (hs : Reachable s) (h : step s = .next t) : Reachable t

end Sys2Proof.Machine
end

