-- ==== Sys2Proof/Certificates/Slice0/Obligations.lean ====
section
/-! DEFINITION. The statements for the provers. Each docstring names the rule of spec/ it formalises. -/

open Sys2Proof Sys2Proof.Machine

/-! ## The codec -/

/-- One word of each kind, an illegal byte and a short buffer, from 95_test_vectors.md parts 2.1 and 2.3. -/
def Obligations.WordsOfTheTestVectorsDecode : Prop :=
  decode [0x5B#8, 0x00#8, 0x00#8, 0x04#8] 0 = .ok (.loadConst 5 2) ∧
    decode [0x20#8, 0x0C#8] 0 = .ok (.readMem 2 3) ∧
    decode [0x1D#8, 0x08#8, 0x03#8, 0x00#8] 0 = .ok (.shiftRight 1 2 3) ∧
    decode [0xAF#8, 0x50#8, 0xE8#8, 0x03#8] 0 = .ok (.writeMem 10 20 1000) ∧
    decode [0xFE#8] 0 = .error (.unknownOpcode 14) ∧
    decode [0x5B#8, 0x00#8, 0x00#8] 0 = .error (.truncatedInstruction 3)

/-- R90, R71: decoding the encoder's output gives back the same kind, the same operand values and the length of R71. -/
def Obligations.DecodeOfEncodeIsTheInstruction : Prop :=
  ∀ (i : Instr) (bytes : List Byte), encode i = .ok bytes →
    decode bytes 0 = .ok i ∧ bytes.length = match i.kind with
      | .readMem => 2
      | .loadConst => 4
      | .shiftRight => 4
      | .writeMem => 4

/-- R68 (which field is named is the spec's decision D17): the encoder yields bytes exactly when every operand fits the declared width of its field, and otherwise a range
error naming the first operand, in the order B, C, D, that does not fit. -/
def Obligations.EncoderChecksEveryOperandRange : Prop :=
  ∀ i : Instr,
    ((∃ bytes, encode i = .ok bytes) ↔ ∀ f v, operandOf i f = some v → v < 2 ^ widthOf i.kind f) ∧
      ∀ f, encode i = .error f ↔
        ∃ v, operandOf i f = some v ∧ 2 ^ widthOf i.kind f ≤ v ∧ FitsBefore i f

/-- The fields of the packed word of LOAD_CONST and its four wire bytes (R61, the bytes being the spec's inference). -/
def Obligations.LoadConstFormat : Prop :=
  ∀ b c : Nat, (Instr.loadConst b c).wf →
    packedWord (.loadConst b c) < 2 ^ 32 ∧
      bits (packedWord (.loadConst b c)) 3 0 = 11 ∧ bits (packedWord (.loadConst b c)) 24 4 = b ∧
      bits (packedWord (.loadConst b c)) 30 25 = c ∧ bits (packedWord (.loadConst b c)) 31 31 = 0 ∧
      wireForm (.loadConst b c) =
        [BitVec.ofNat 8 ((bits b 3 0 <<< 4) ||| 0xB), BitVec.ofNat 8 (bits b 11 4), BitVec.ofNat 8 (bits b 19 12),
          BitVec.ofNat 8 ((c <<< 1) ||| bits b 20 20)]

/-- The fields of the packed word of SHIFT_RIGHT and its four wire bytes, the reserved bits zero (R62, the bytes being the
spec's inference). -/
def Obligations.ShiftRightFormat : Prop :=
  ∀ b c d : Nat, (Instr.shiftRight b c d).wf →
    packedWord (.shiftRight b c d) < 2 ^ 32 ∧
      bits (packedWord (.shiftRight b c d)) 3 0 = 13 ∧ bits (packedWord (.shiftRight b c d)) 9 4 = b ∧
      bits (packedWord (.shiftRight b c d)) 15 10 = c ∧ bits (packedWord (.shiftRight b c d)) 21 16 = d ∧
      bits (packedWord (.shiftRight b c d)) 31 22 = 0 ∧
      wireForm (.shiftRight b c d) =
        [BitVec.ofNat 8 ((bits b 3 0 <<< 4) ||| 0xD), BitVec.ofNat 8 ((c <<< 2) ||| bits b 5 4), BitVec.ofNat 8 d,
          0x00#8]

/-- The fields of the packed word of WRITE_MEM and its four wire bytes, the reserved bits zero (R63, the bytes being the
spec's inference). -/
def Obligations.WriteMemFormat : Prop :=
  ∀ b c d : Nat, (Instr.writeMem b c d).wf →
    packedWord (.writeMem b c d) < 2 ^ 32 ∧
      bits (packedWord (.writeMem b c d)) 3 0 = 15 ∧ bits (packedWord (.writeMem b c d)) 9 4 = b ∧
      bits (packedWord (.writeMem b c d)) 15 10 = c ∧ bits (packedWord (.writeMem b c d)) 27 16 = d ∧
      bits (packedWord (.writeMem b c d)) 31 28 = 0 ∧
      wireForm (.writeMem b c d) =
        [BitVec.ofNat 8 ((bits b 3 0 <<< 4) ||| 0xF), BitVec.ofNat 8 ((c <<< 2) ||| bits b 5 4),
          BitVec.ofNat 8 (bits d 7 0), BitVec.ofNat 8 (bits d 11 8)]

/-- The fields of the conceptual word of READ_MEM, the half-word that goes on the wire, and its two bytes, from
which the decoder always reads opcode 0 (R64, decision D7; the bytes are the spec's inference). -/
def Obligations.ReadMemFormat : Prop :=
  ∀ b c : Nat, (Instr.readMem b c).wf →
    packedWord (.readMem b c) < 2 ^ 32 ∧
      bits (packedWord (.readMem b c)) 3 0 = 0 ∧ bits (packedWord (.readMem b c)) 19 4 = 0 ∧
      bits (packedWord (.readMem b c)) 25 20 = b ∧ bits (packedWord (.readMem b c)) 31 26 = c ∧
      wireWord (.readMem b c) = bits (packedWord (.readMem b c)) 31 16 ∧
      bits (wireWord (.readMem b c)) 3 0 = 0 ∧ bits (wireWord (.readMem b c)) 9 4 = b ∧
      bits (wireWord (.readMem b c)) 15 10 = c ∧
      wireForm (.readMem b c) =
        [BitVec.ofNat 8 (bits b 3 0 <<< 4), BitVec.ofNat 8 ((c <<< 2) ||| bits b 5 4)] ∧
      ∀ first ∈ (wireForm (.readMem b c)).head?, opcodeNibble first = 0

/-- R78 (the spec's decision D6): the words that decode to an instruction are its canonical word with any value in the reserved bits, so 1, 2, 1024
or 16 of them; the encoder produces the one with the reserved bits zero, and re-encoding gives the bytes back only then. -/
def Obligations.DecoderIgnoresReservedBits : Prop :=
  ∀ (i : Instr) (bytes : List Byte), i.wf → bytes.length = i.length →
    (decode bytes 0 = .ok i ↔
        ∃ r, r < 2 ^ reservedCount i.kind ∧ bytes = leBytes (wireWord i + r * 2 ^ reservedFrom i.kind) i.length) ∧
      (decode bytes 0 = .ok i → (encode i = .ok bytes ↔ le bytes < 2 ^ reservedFrom i.kind))

/-- R77: a byte whose low nibble is one of the twelve illegal values spells no instruction, whatever its high nibble and
whatever follows it; the engine stops there with UnknownOpcode, skips nothing and has no further step. -/
def Obligations.IllegalNibbleSpellsNoInstruction : Prop :=
  ∀ (prog : List Byte) (pc : Nat) (byte : Byte), prog[pc]? = some byte →
    byte.toNat % 16 ∈ [1, 2, 3, 4, 5, 6, 7, 8, 9, 10, 12, 14] →
    decode prog pc = .error (.unknownOpcode (byte.toNat % 16)) ∧
      ∀ s : State, s.status.runState = .running → s.prog = some prog → s.pc = pc →
        ∃ t, step s = .next t ∧ FaultsWith s .unknownOpcode (byte.toNat % 16) t ∧ ∀ u, step t ≠ .next u

/-- For each legal opcode nibble, the fields of the word read at `pc` when the instruction's bytes are there, and how many
bytes are left when they are not (R73 to R75, with the spec's decisions D4 and D7). -/
def Obligations.DecoderExtractsTheFields : Prop :=
  ∀ (prog : List Byte) (pc : Nat) (byte : Byte), prog[pc]? = some byte →
    (byte.toNat % 16 = 0 →
        (pc + 2 ≤ prog.length → decode prog pc =
          .ok (.readMem (bits (le (progRead prog pc 2)) 9 4) (bits (le (progRead prog pc 2)) 15 10))) ∧
        (prog.length < pc + 2 → decode prog pc = .error (.truncatedInstruction (prog.length - pc)))) ∧
      (byte.toNat % 16 = 11 ∨ byte.toNat % 16 = 13 ∨ byte.toNat % 16 = 15 →
        prog.length < pc + 4 → decode prog pc = .error (.truncatedInstruction (prog.length - pc))) ∧
      (pc + 4 ≤ prog.length →
        (byte.toNat % 16 = 11 → decode prog pc =
          .ok (.loadConst (bits (le (progRead prog pc 4)) 24 4) (bits (le (progRead prog pc 4)) 30 25))) ∧
        (byte.toNat % 16 = 13 → decode prog pc =
          .ok (.shiftRight (bits (le (progRead prog pc 4)) 9 4) (bits (le (progRead prog pc 4)) 15 10)
            (bits (le (progRead prog pc 4)) 21 16))) ∧
        (byte.toNat % 16 = 15 → decode prog pc =
          .ok (.writeMem (bits (le (progRead prog pc 4)) 9 4) (bits (le (progRead prog pc 4)) 15 10)
            (bits (le (progRead prog pc 4)) 27 16))))

/-- The decoder never yields an out-of-range operand and never reads past the end: a decoded instruction is well-formed,
its bytes lie inside the program and its length is the one its opcode nibble gives (R72, R75, R80). -/
def Obligations.DecodedInstructionIsWellFormed : Prop :=
  ∀ (prog : List Byte) (pc : Nat) (i : Instr), decode prog pc = .ok i →
    i.wf ∧ pc + i.length ≤ prog.length ∧
      ∃ byte, prog[pc]? = some byte ∧ byte.toNat % 16 = opcodeOf i.kind ∧
        i.length = if byte.toNat % 16 = 0 then 2 else 4

/-- In a binary made by the encoder, every instruction is decoded where the wire forms before it end (R80, R87, R90). -/
def Obligations.EncodedProgramDecodesAtEachBoundary : Prop :=
  ∀ (before after : List Instr) (i : Instr), i.wf →
    decode ((before ++ i :: after).flatMap wireForm) (before.flatMap wireForm).length = .ok i

/-- The spec's inference R91: a binary made only by the encoder never raises UnknownOpcode or TruncatedInstruction; after k
instructions pc is the sum of their encoded widths. It ends within one step more than it has instructions: in HALTED, with
pc the binary's length, or in a fault of an instruction's effect, OutOfBounds or ShiftAmount. -/
def Obligations.EncodedProgramNeverFaultsInFetch : Prop :=
  ∀ (program : List Instr) (s s0 : State), (∀ i ∈ program, i.wf) →
    boot (program.flatMap wireForm) s = .ok s0 →
    (∀ i ∈ program, ∀ first ∈ (wireForm i).head?, first.toNat % 16 ∈ [0, 11, 13, 15]) ∧
      (∀ k, (run k s0).status.cause ≠ .unknownOpcode ∧ (run k s0).status.cause ≠ .truncatedInstruction ∧
        ((run k s0).status.runState = .running → (run k s0).pc = ((program.take k).map Instr.length).sum) ∧
        ((run k s0).status.runState = .halted → (run k s0).pc = (program.flatMap wireForm).length)) ∧
      ((run (program.length + 1) s0).status.runState = .halted ∨
        ((run (program.length + 1) s0).status.runState = .faulted ∧
          ((run (program.length + 1) s0).status.cause = .outOfBounds ∨
            (run (program.length + 1) s0).status.cause = .shiftAmount)))

/-! ## The engine -/

/-- The engine runs the decoded instruction: when the bytes at `pc` decode to `i`, a step of the RUNNING engine is `exec i`,
which advances `pc` past the instruction's own bytes unless it faults (R102 to R104). -/
def Obligations.StepExecutesTheDecodedInstruction : Prop :=
  ∀ (s : State) (prog : List Byte) (i : Instr), s.status.runState = .running → s.prog = some prog →
    decode prog s.pc = .ok i →
    step s = exec i s ∧
      ∀ t, exec i s = .next t → t.status.runState ≠ .faulted → t.pc = s.pc + i.length

/-- A step outside RUNNING is refused (R100 says that there is none; the refusal by name is the model's choice, log 5).
Inside, with a program loaded, a step always answers a next state. It keeps every cell but the one the decoded instruction
writes, and every cell where no instruction is decoded, at the end of the program and on a fault of fetch. -/
def Obligations.EngineStepsExactlyWhileRunning : Prop :=
  ∀ s : State,
    (s.status.runState ≠ .running → step s = .refused (.noStep s.status.runState)) ∧
      (s.status.runState = .running → s.prog.isSome →
        ∃ t, step s = .next t ∧
          ∀ prog, s.prog = some prog →
            (∀ i, decode prog s.pc = .ok i → ∀ a, a ≠ destination i s → t.cell a = s.cell a) ∧
              ((∀ i, decode prog s.pc ≠ .ok i) → ∀ a, t.cell a = s.cell a))

/-- R101: at the end of the program a step sets HALTED and changes nothing else. -/
def Obligations.EndOfProgramHalts : Prop :=
  ∀ (s : State) (prog : List Byte), s.status.runState = .running → s.prog = some prog → prog.length ≤ s.pc →
    ∃ t, step s = .next t ∧ t.status = { s.status with runState := .halted } ∧
      t.pc = s.pc ∧ t.mem = s.mem ∧ t.prog = s.prog ∧ t.config = s.config

/-- The empty binary halts on the first step with all of memory zero and `pc` 0 (the spec's inference in R101). -/
def Obligations.EmptyBinaryHaltsAtOnce : Prop :=
  ∀ s s0 : State, boot [] s = .ok s0 →
    ∃ t, step s0 = .next t ∧ t.status.runState = .halted ∧ t.pc = 0 ∧ ∀ a, t.cell a = 0

/-- R22: an instruction that completes advances `pc` by its encoded length, 2 for READ_MEM and 4 for the others; a step
that faults or detects the end leaves `pc` unchanged. -/
def Obligations.PcAdvancesByTheEncodedLength : Prop :=
  ∀ s t : State, step s = .next t →
    (t.status.runState = .running →
        ∃ prog i, s.prog = some prog ∧ decode prog s.pc = .ok i ∧
          t.pc = s.pc + (if i.kind = .readMem then 2 else 4)) ∧
      (t.status.runState ≠ .running → t.pc = s.pc)

/-- No step changes the program buffer or the parameters of the machine: fetch never sees a store (R27, R54). -/
def Obligations.ProgramNeverChanges : Prop :=
  ∀ s t : State, step s = .next t → t.prog = s.prog ∧ t.config = s.config

/-- The order of the instructions executed does not depend on data: two engines at the same `pc` of the same program,
whatever their memories, move to the same `pc` unless one of them faults (R106, R108). -/
def Obligations.ControlFlowIgnoresData : Prop :=
  ∀ s s' t t' : State, s.prog = s'.prog → s.pc = s'.pc → step s = .next t → step s' = .next t' →
    t.status.runState ≠ .faulted → t'.status.runState ≠ .faulted →
    t.pc = t'.pc ∧ t.status.runState = t'.status.runState

/-- The spec's inference R105: a step that does not end the run raises `pc` by at least 2, at most `PROG_LEN / 2` instructions execute, and the
run is HALTED or FAULTED within `PROG_LEN / 2 + 1` steps. -/
def Obligations.EveryRunEndsWithinTheBound : Prop :=
  ∀ s : State, s.inv → s.status.runState = .running →
    (∀ t, step s = .next t → t.status.runState = .running → s.pc + 2 ≤ t.pc) ∧
      (∀ k, (run k s).status.runState = .running → k ≤ s.progLen / 2) ∧
      ((run (s.progLen / 2 + 1) s).status.runState = .halted ∨
        (run (s.progLen / 2 + 1) s).status.runState = .faulted)

/-! ## The instructions -/

/-- R120: LOAD_CONST writes its constant to cell `C` and nothing else, or faults when `C` is not below
`MEM_SIZE` (the spec's decision D3). -/
def Obligations.LoadConstStoresItsConstant : Prop :=
  ∀ (b c : Nat) (s : State), Memory.wf s.mem →
    (c < s.config.memSize → ∃ t, exec (.loadConst b c) s = .next t ∧ WritesCell s c b 4 t) ∧
      (s.config.memSize ≤ c → ∃ t, exec (.loadConst b c) s = .next t ∧ FaultsWith s .outOfBounds c t)

/-- R121: READ_MEM copies cell `B` to cell `C`; an address not below `MEM_SIZE` faults (the spec's
decision D3), `B` first. -/
def Obligations.ReadMemCopiesACell : Prop :=
  ∀ (b c : Nat) (s : State), Memory.wf s.mem →
    (b < s.config.memSize → c < s.config.memSize →
        ∃ t, exec (.readMem b c) s = .next t ∧ WritesCell s c (s.cell b) 2 t) ∧
      (s.config.memSize ≤ b → ∃ t, exec (.readMem b c) s = .next t ∧ FaultsWith s .outOfBounds b t) ∧
      (b < s.config.memSize → s.config.memSize ≤ c →
        ∃ t, exec (.readMem b c) s = .next t ∧ FaultsWith s .outOfBounds c t)

/-- R122, R123: WRITE_MEM copies cell `C` to the cell at the exact sum `B + D`; the sum wraps nowhere, and an address not
below `MEM_SIZE` faults (the spec's decision D3), `C` first. -/
def Obligations.WriteMemStoresAtBasePlusOffset : Prop :=
  ∀ (b c d : Nat) (s : State), Memory.wf s.mem →
    baseOffset b d = b + d ∧
      ((Instr.writeMem b c d).wf → baseOffset b d ≤ 4158) ∧
      (c < s.config.memSize → baseOffset b d < s.config.memSize →
        ∃ t, exec (.writeMem b c d) s = .next t ∧ WritesCell s (baseOffset b d) (s.cell c) 4 t) ∧
      (s.config.memSize ≤ c → ∃ t, exec (.writeMem b c d) s = .next t ∧ FaultsWith s .outOfBounds c t) ∧
      (c < s.config.memSize → s.config.memSize ≤ baseOffset b d →
        ∃ t, exec (.writeMem b c d) s = .next t ∧ FaultsWith s .outOfBounds (baseOffset b d) t)

/-- R140, R146: SHIFT_RIGHT reads value, destination address and amount from cells `B`, `C` and `D` as they were before it,
and writes the formula's result to cell `MEM[C]`; an amount of at most 16 completes, a greater one raises ShiftAmount (the
spec's decision D5), also where the destination is out of bounds. -/
def Obligations.ShiftRightStoresTheRotation : Prop :=
  ∀ (b c d : Nat) (s : State), Memory.wf s.mem →
    (b < s.config.memSize → c < s.config.memSize → d < s.config.memSize →
        indirect c s = .ok (s.cell c) ∧
        (s.cell d ≤ 16 → s.cell c < s.config.memSize →
          ∃ t, exec (.shiftRight b c d) s = .next t ∧
            WritesCell s (s.cell c)
              ((s.cell b >>> s.cell d) ||| ((s.cell b <<< (16 - s.cell d)) &&& 0xFFFF)) 4 t) ∧
        (16 < s.cell d →
          ∃ t, exec (.shiftRight b c d) s = .next t ∧ FaultsWith s .shiftAmount (s.cell d) t) ∧
        (s.cell d ≤ 16 → s.config.memSize ≤ s.cell c →
          ∃ t, exec (.shiftRight b c d) s = .next t ∧ FaultsWith s .outOfBounds (s.cell c) t)) ∧
      (s.config.memSize ≤ b → ∃ t, exec (.shiftRight b c d) s = .next t ∧ FaultsWith s .outOfBounds b t) ∧
      (b < s.config.memSize → s.config.memSize ≤ c →
        ∃ t, exec (.shiftRight b c d) s = .next t ∧ FaultsWith s .outOfBounds c t) ∧
      (b < s.config.memSize → c < s.config.memSize → s.config.memSize ≤ d →
        ∃ t, exec (.shiftRight b c d) s = .next t ∧ FaultsWith s .outOfBounds d t)

/-- The frame of all four instructions: every cell but the destination reads as before, the program and the parameters are
unchanged, and the status is unchanged unless the instruction faults, when memory and `pc` are unchanged too (R103, R172). -/
def Obligations.InstructionsChangeOnlyTheirDestination : Prop :=
  ∀ (i : Instr) (s t : State), exec i s = .next t →
    (∀ a, a ≠ destination i s → t.cell a = s.cell a) ∧ t.prog = s.prog ∧ t.config = s.config ∧
      ((t.status = s.status ∧ t.pc = s.pc + i.length) ∨
        (t.status.runState = .faulted ∧ t.mem = s.mem ∧ t.pc = s.pc))

/-- The cells each instruction can change: no well-formed LOAD_CONST or READ_MEM touches a cell above 63, no WRITE_MEM one
above 4158, no SHIFT_RIGHT one above `2^21 - 1` (R42, with R29 in the invariant). -/
def Obligations.WrittenAddressesStayInRange : Prop :=
  ∀ (i : Instr) (s t : State), s.inv → i.wf → exec i s = .next t →
    ∀ a, lastWritable i.kind < a → t.cell a = s.cell a

/-- With `MEM_SIZE` at least 64 the only accesses that run out of bounds are the store of WRITE_MEM, exactly when
`B + D` is not below `MEM_SIZE`, and the store of SHIFT_RIGHT, exactly when its amount is legal and `MEM[C]` is not (R45). -/
def Obligations.OnlyComputedStoresRunOutOfBounds : Prop :=
  ∀ (i : Instr) (s : State), 64 ≤ s.config.memSize → i.wf →
    ((∃ t a, exec i s = .next t ∧ FaultsWith s .outOfBounds a t) ↔
      (∃ b c d, i = .writeMem b c d ∧ s.config.memSize ≤ b + d) ∨
        (∃ b c d, i = .shiftRight b c d ∧ s.cell d ≤ 16 ∧ s.config.memSize ≤ s.cell c))

/-- A store is visible to the very next instruction (R52, R198). The value any completed instruction writes is what the
next one reads from that cell: READ_MEM and WRITE_MEM as the value they move, SHIFT_RIGHT as the value it rotates, as the
address it writes to and as its amount. It stays there past any instruction with another destination. -/
def Obligations.StoreIsVisibleToTheNextInstruction : Prop :=
  ∀ (i : Instr) (s t : State), Memory.wf s.mem → exec i s = .next t → t.status.runState ≠ .faulted →
    t.cell (destination i s) = resultOf i s ∧
      (∀ e, e < s.config.memSize →
        ∃ u, exec (.readMem (destination i s) e) t = .next u ∧ u.cell e = resultOf i s) ∧
      (∀ b d, baseOffset b d < s.config.memSize →
        ∃ u, exec (.writeMem b (destination i s) d) t = .next u ∧ u.cell (baseOffset b d) = resultOf i s) ∧
      (∀ c d, c < s.config.memSize → d < s.config.memSize → t.cell c < s.config.memSize → t.cell d ≤ 16 →
        ∃ u, exec (.shiftRight (destination i s) c d) t = .next u ∧
          u.cell (t.cell c) = rot (resultOf i s) (t.cell d)) ∧
      (∀ b d, b < s.config.memSize → d < s.config.memSize → resultOf i s < s.config.memSize → t.cell d ≤ 16 →
        ∃ u, exec (.shiftRight b (destination i s) d) t = .next u ∧
          u.cell (resultOf i s) = rot (t.cell b) (t.cell d)) ∧
      (∀ b c, b < s.config.memSize → c < s.config.memSize → t.cell c < s.config.memSize → resultOf i s ≤ 16 →
        ∃ u, exec (.shiftRight b c (destination i s)) t = .next u ∧
          u.cell (t.cell c) = rot (t.cell b) (resultOf i s)) ∧
      ∀ j u, exec j t = .next u → destination j t ≠ destination i s → u.cell (destination i s) = resultOf i s

/-! ## The rotate function -/

/-- The formula of R141 and its equal form (the spec's inference): the low `s` bits of `v` moved up to bits 15 .. 16-s, the others moved down. -/
def Obligations.RotateEqualForm : Prop :=
  ∀ v s : Nat, s ≤ 16 →
    rot v s = ((v >>> s) ||| ((v <<< (16 - s)) &&& 0xFFFF)) ∧
      (v <<< (16 - s)) &&& 0xFFFF = (v % 2 ^ s) <<< (16 - s) ∧
      rot v s = ((v >>> s) ||| ((v % 2 ^ s) <<< (16 - s)))

/-- The spec's inference R142: below `2^16` the result is the rotation by `s mod 16` within 16 bits, and the two terms do not overlap. -/
def Obligations.RotateIsRotationOnSixteenBits : Prop :=
  ∀ v s : Nat, v < 2 ^ 16 → s ≤ 16 →
    rot v s = ((BitVec.ofNat 16 v).rotateRight (s % 16)).toNat ∧ rot v s < 2 ^ 16 ∧
      rot v s = (v >>> s) + ((v <<< (16 - s)) &&& 0xFFFF)

/-- The spec's inference R144: the two ends of the amount range. -/
def Obligations.RotateAtTheEndsOfTheRange : Prop :=
  ∀ v : Nat, rot v 0 = v ∧ rot v 16 = ((v >>> 16) ||| (v &&& 0xFFFF)) ∧ (v < 2 ^ 16 → rot v 16 = v)

/-- The spec's inference R145: the result of a value below `2^21` is below `2^21`, and more exactly below `max(2^16, 2^(21-s))`. -/
def Obligations.RotateStaysBelowTwoToTheTwentyOne : Prop :=
  ∀ v s : Nat, v < 2 ^ 21 → s ≤ 16 → rot v s < 2 ^ 21 ∧ rot v s < max (2 ^ 16) (2 ^ (21 - s))

/-! ## Memory -/

/-- R43: a read answers the cell's current value, below `2^CELL_W`, when the address is below `MEM_SIZE`, and OutOfBounds
otherwise; after reset every cell reads 0. -/
def Obligations.ReadAnswersTheCellOrOutOfBounds : Prop :=
  (∀ (s : State) (a : Nat), a < s.config.memSize → memRead a s = .ok (s.cell a)) ∧
    (∀ (s : State) (a : Nat), s.config.memSize ≤ a → memRead a s = .error (.outOfBounds a)) ∧
    (∀ (s : State) (a v : Nat), s.inv → memRead a s = .ok v → v < 2 ^ s.config.cellWidth) ∧
    ∀ (c : Config) (a : Nat), a < c.memSize → memRead a (State.resetWith c) = .ok 0

/-- A write below `MEM_SIZE` sets that cell, leaves every other cell and every other part of the machine unchanged and
keeps the canonical form; at or beyond `MEM_SIZE` it is OutOfBounds (R44). -/
def Obligations.WriteSetsOneCellOrOutOfBounds : Prop :=
  ∀ (s : State) (a v : Nat), Memory.wf s.mem →
    (a < s.config.memSize →
        ∃ t, memWrite a v s = .ok t ∧ memRead a t = .ok v ∧ (∀ x, x ≠ a → memRead x t = memRead x s) ∧
          Memory.wf t.mem ∧ t.pc = s.pc ∧ t.status = s.status ∧ t.prog = s.prog ∧ t.config = s.config) ∧
      (s.config.memSize ≤ a → memWrite a v s = .error (.outOfBounds a))

/-- Canonical memories that read alike at every address are the same data (log 9). -/
def Obligations.CanonicalMemoriesThatReadAlikeAreEqual : Prop :=
  ∀ m m' : Memory, Memory.wf m → Memory.wf m' → (∀ a, Memory.get m a = Memory.get m' a) → m = m'

/-- Every step keeps the canonical form of the data memory, from every canonical state (log 9). -/
def Obligations.StepKeepsMemoryCanonical : Prop :=
  ∀ s t : State, Memory.wf s.mem → step s = .next t → Memory.wf t.mem

/-! ## Faults -/

/-- R172 (the spec's decision D9): a fault sets FAULTED with its cause and number, leaves `pc`, memory, program and parameters unchanged, and no
step follows; a step reaches FAULTED in no other way. -/
def Obligations.FaultEntryChangesOnlyTheStatus : Prop :=
  (∀ (f : Fault) (s : State),
      FaultsWith s f.cause f.info (takeFault f s) ∧ ∀ u, step (takeFault f s) ≠ .next u) ∧
    ∀ s t : State, step s = .next t → t.status.runState = .faulted → ∃ f : Fault, FaultsWith s f.cause f.info t

/-- R163 (the spec's decision D8): the codes, and for every step that faults the condition and the recorded number of its cause. -/
def Obligations.FaultRecordFollowsTheTable : Prop :=
  (Cause.noFault.code = 0 ∧ Cause.unknownOpcode.code = 1 ∧ Cause.truncatedInstruction.code = 2 ∧
      Cause.outOfBounds.code = 3 ∧ Cause.shiftAmount.code = 4) ∧
    ∀ (s t : State) (prog : List Byte), s.prog = some prog → step s = .next t → t.status.runState = .faulted →
      (∃ byte, prog[s.pc]? = some byte ∧ byte.toNat % 16 ∈ [1, 2, 3, 4, 5, 6, 7, 8, 9, 10, 12, 14] ∧
          t.status.cause = .unknownOpcode ∧ t.status.info = byte.toNat % 16) ∨
        (∃ byte, prog[s.pc]? = some byte ∧ byte.toNat % 16 ∈ [0, 11, 13, 15] ∧
          prog.length < s.pc + (if byte.toNat % 16 = 0 then 2 else 4) ∧ t.status.cause = .truncatedInstruction ∧
          t.status.info = prog.length - s.pc ∧ 1 ≤ t.status.info ∧ t.status.info ≤ 3) ∨
        (∃ i, decode prog s.pc = .ok i ∧ t.status.cause = .outOfBounds ∧ s.config.memSize ≤ t.status.info ∧
          (64 ≤ s.config.memSize →
            t.status.info = destination i s ∧ (i.kind = .writeMem ∨ i.kind = .shiftRight))) ∨
        (∃ b c d, decode prog s.pc = .ok (.shiftRight b c d) ∧ 16 < s.cell d ∧
          t.status.cause = .shiftAmount ∧ t.status.info = s.cell d)

/-- The two faults of fetch (R164, R165): an illegal nibble at `pc` is UnknownOpcode, however few bytes follow; a legal one
whose instruction passes the end of the program is TruncatedInstruction with the bytes left, 1 for READ_MEM, 1 to 3 for the
others. -/
def Obligations.FetchFaultsBeforeAnyEffect : Prop :=
  ∀ (s : State) (prog : List Byte) (byte : Byte), s.status.runState = .running → s.prog = some prog →
    prog[s.pc]? = some byte →
    (byte.toNat % 16 ∈ [1, 2, 3, 4, 5, 6, 7, 8, 9, 10, 12, 14] →
        ∃ t, step s = .next t ∧ FaultsWith s .unknownOpcode (byte.toNat % 16) t) ∧
      (byte.toNat % 16 = 0 → prog.length < s.pc + 2 →
        ∃ t, step s = .next t ∧ FaultsWith s .truncatedInstruction 1 t) ∧
      (byte.toNat % 16 ∈ [11, 13, 15] → prog.length < s.pc + 4 →
        ∃ t left, step s = .next t ∧ FaultsWith s .truncatedInstruction left t ∧
          s.pc + left = prog.length ∧ 1 ≤ left ∧ left ≤ 3)

/-- R175: HALTED and FAULTED are terminal. No step, load or start leaves them; reset does, and clears memory. -/
def Obligations.StoppedEngineLeavesOnlyByReset : Prop :=
  ∀ s : State, s.status.runState = .halted ∨ s.status.runState = .faulted →
    (∀ t, step s ≠ .next t) ∧ (∀ bytes, ∃ r, load bytes s = .error r) ∧ (∃ r, start s = .error r) ∧
      (resetMachine s).status.runState = .idle ∧ ∀ a, (resetMachine s).cell a = 0

/-! ## Reset and the host -/

/-- R190 (the status values are the spec's decision D12): reset gives, from any state, all cells 0, `pc` 0, IDLE, cause 0
and number 0, and nothing of the old state but the parameters of the machine survives it; HALTED and FAULTED are left in no
other way. -/
def Obligations.ResetGivesTheResetValues : Prop :=
  (∀ s : State, (∀ a, (resetMachine s).cell a = 0) ∧ (resetMachine s).pc = 0 ∧
      (resetMachine s).status.runState = .idle ∧ (resetMachine s).status.cause.code = 0 ∧
      (resetMachine s).status.info = 0) ∧
    (∀ s s' : State, s.config = s'.config → resetMachine s = resetMachine s') ∧
    resetMachine State.reset = State.reset ∧
    ∀ s : State, s.status.runState = .halted ∨ s.status.runState = .faulted →
      (∀ t, step s ≠ .next t) ∧ (∀ bytes, ∃ r, load bytes s = .error r) ∧ ∃ r, start s = .error r

/-- R193: load puts any byte string shorter than `2^31` into the empty program buffer, in IDLE only, and changes nothing
else. -/
def Obligations.LoadPlacesTheBinary : Prop :=
  ∀ (bytes : List Byte) (s : State),
    (s.status.runState = .idle → s.prog = none → bytes.length < 2 ^ 31 →
        ∃ t, load bytes s = .ok t ∧ t.prog = some bytes ∧ t.progLen = bytes.length ∧
          t.pc = s.pc ∧ t.mem = s.mem ∧ t.status = s.status ∧ t.config = s.config) ∧
      (s.status.runState = .idle → 2 ^ 31 ≤ bytes.length → ∃ r, load bytes s = .error r) ∧
      (s.status.runState ≠ .idle → ∃ r, load bytes s = .error r)

/-- A further load in IDLE replaces the loaded program and changes nothing else (the model's choice, log 18). -/
def Obligations.LastLoadBeforeStartCounts : Prop :=
  ∀ (old bytes : List Byte) (s : State), s.status.runState = .idle → s.prog = some old → bytes.length < 2 ^ 31 →
    ∃ t u, load bytes s = .ok t ∧ t.prog = some bytes ∧ t.progLen = bytes.length ∧
      t.pc = s.pc ∧ t.mem = s.mem ∧ t.status = s.status ∧ t.config = s.config ∧
      start t = .ok u ∧ u.prog = some bytes

/-- R194: start changes the run state from IDLE to RUNNING and nothing else; after reset and load, `pc` is 0. Outside IDLE,
and before a load (the spec's decision D14), start is refused. -/
def Obligations.StartChangesOnlyTheRunState : Prop :=
  (∀ (s : State) (bytes : List Byte), s.status.runState = .idle → s.prog = some bytes →
      ∃ t, start s = .ok t ∧ t.status = { s.status with runState := .running } ∧
        t.pc = s.pc ∧ t.mem = s.mem ∧ t.prog = s.prog ∧ t.config = s.config) ∧
    (∀ s : State, s.status.runState ≠ .idle → ∃ r, start s = .error r) ∧
    (∀ s : State, s.prog = none → ∃ r, start s = .error r) ∧
    ∀ (bytes : List Byte) (s s0 : State), boot bytes s = .ok s0 →
      s0.pc = 0 ∧ s0.status = { runState := .running, cause := .noFault, info := 0 } ∧ s0.prog = some bytes ∧
        ∀ a, s0.cell a = 0

/-- While the engine runs, the host can load, start, dump and read nothing (R195; that it may still reset is R190, log 11);
outside a run it reads `status` and `pc` (R174, log 11). -/
def Obligations.HostHasNoMoveDuringARun : Prop :=
  ∀ s : State,
    (s.status.runState = .running →
      (∀ bytes, ∃ r, load bytes s = .error r) ∧ (∃ r, start s = .error r) ∧
        (∀ first last, ∃ r, dump first last s = .error r) ∧ ∃ r, readStatus s = .error r) ∧
      (s.status.runState ≠ .running → readStatus s = .ok (s.status, s.pc))

/-- R196 (the bad ranges are the spec's decision D14): in HALTED the dump of an inclusive range below `MEM_SIZE` maps each of its addresses to the cell's value, with
`end - start + 1` entries; it is empty for `start > end`, refused for a range that reaches `MEM_SIZE`, and refused in any
other run state. -/
def Obligations.DumpMapsTheRange : Prop :=
  ∀ (s : State) (first last : Nat),
    (s.status.runState = .halted → first ≤ last → last < s.config.memSize →
        ∃ cells, dump first last s = .ok cells ∧ cells.length = last - first + 1 ∧
          ∀ a v, (a, v) ∈ cells ↔ first ≤ a ∧ a ≤ last ∧ v = s.cell a) ∧
      (s.status.runState = .halted → last < first → last < s.config.memSize → dump first last s = .ok []) ∧
      (s.status.runState = .halted → first ≤ last → s.config.memSize ≤ last → ∃ r, dump first last s = .error r) ∧
      (s.status.runState ≠ .halted → ∃ r, dump first last s = .error r)

/-! ## Invariants -/

/-- The reset state of every machine with legal parameters meets the invariant, and `State.reset` has the defaults of R5
(the spec's decisions D1 and D2). -/
def Obligations.ResetStateMeetsTheInvariant : Prop :=
  (∀ c : Config, 1 ≤ c.memSize → 21 ≤ c.cellWidth → (State.resetWith c).inv) ∧
    State.reset.inv ∧ State.reset.config.memSize = 1024 ∧ State.reset.config.cellWidth = 32

/-- Every step keeps the invariant, from every state that meets it. -/
def Obligations.StepKeepsTheInvariant : Prop :=
  ∀ s t : State, s.inv → step s = .next t → t.inv

/-- Every state the machine can reach, over power on, reset, load, start and steps, meets the invariant. -/
def Obligations.ReachableStatesMeetTheInvariant : Prop :=
  ∀ s : State, Reachable s → s.inv

/-- The spec's inference R29: in every reachable state every cell is below `2^21`, and machines that differ only in a cell width of 21 or more
give the same runs. -/
def Obligations.CellValuesStayBelowTwoToTheTwentyOne : Prop :=
  (∀ s : State, Reachable s → ∀ a, s.cell a < 2 ^ 21) ∧
    ∀ (memSize width width' : Nat) (bytes : List Byte) (s s' t t' : State), 21 ≤ width → 21 ≤ width' →
      powerOn { memSize := memSize, cellWidth := width } = .ok s →
      powerOn { memSize := memSize, cellWidth := width' } = .ok s' →
      boot bytes s = .ok t → boot bytes s' = .ok t' →
      ∀ k, (run k t).pc = (run k t').pc ∧ (run k t).mem = (run k t').mem ∧ (run k t).status = (run k t').status

/-- R23, with the spec's inferences in it: `pc` is even and at most `PROG_LEN` in every reachable state, and exactly `PROG_LEN` at a normal end; it never
needs more than 31 bits. -/
def Obligations.PcStaysEvenAndInsideTheProgram : Prop :=
  ∀ s : State, Reachable s → s.pc % 2 = 0 ∧ s.pc ≤ s.progLen ∧ s.pc < 2 ^ 31 ∧
    (s.status.runState = .halted → s.pc = s.progLen)

/-! ## The assembler -/

/-- A blank line or a comment line (R82, decision D15; whitespace is log 13) produces no bytes, no log record and no error, and taking it out changes nothing
but the numbers of the lines after it. -/
def Obligations.BlankAndCommentLinesAreSkipped : Prop :=
  ∀ line : List Char, (tokens line = [] ∨ ∃ name operands, tokens line = ('#' :: name) :: operands) →
    assembleLine line = .ok none ∧
      ∀ (n : Nat) (before after : List (List Char)) (log : List LogRecord),
        assembleLines n (before ++ line :: after) = .ok log ↔ assembleLines n (before ++ after) = .ok log

/-- The four statements (R83): the mnemonics exactly as spelled there and nothing else (the spec's decision D15), the
operands in the order of the table. -/
def Obligations.StatementsNameTheFourInstructions : Prop :=
  (∀ name, (kindOfMnemonic name = some .loadConst ↔ name = ['L', 'O', 'A', 'D', '_', 'C', 'O', 'N', 'S', 'T']) ∧
      (kindOfMnemonic name = some .readMem ↔ name = ['R', 'E', 'A', 'D', '_', 'M', 'E', 'M']) ∧
      (kindOfMnemonic name = some .writeMem ↔ name = ['W', 'R', 'I', 'T', 'E', '_', 'M', 'E', 'M']) ∧
      (kindOfMnemonic name = some .shiftRight ↔ name = ['S', 'H', 'I', 'F', 'T', '_', 'R', 'I', 'G', 'H', 'T'])) ∧
    ∀ tb tc td b c d, number tb = some b → number tc = some c → number td = some d →
      parseStatement ['L', 'O', 'A', 'D', '_', 'C', 'O', 'N', 'S', 'T'] [tb, tc] = .ok (.loadConst b c) ∧
        parseStatement ['R', 'E', 'A', 'D', '_', 'M', 'E', 'M'] [tb, tc] = .ok (.readMem b c) ∧
        parseStatement ['W', 'R', 'I', 'T', 'E', '_', 'M', 'E', 'M'] [tb, tc, td] = .ok (.writeMem b c d) ∧
        parseStatement ['S', 'H', 'I', 'F', 'T', '_', 'R', 'I', 'G', 'H', 'T'] [tb, tc, td] = .ok (.shiftRight b c d)

/-- A token is numeric (R84, the spec's decision D15) exactly when it is one or more decimal digits, or `0x` or `0X` and one or more hexadecimal
digits of either case; so a token with a minus sign is not. -/
def Obligations.NumericTokensAreDecimalOrHexadecimal : Prop :=
  ∀ token : List Char, (number token).isSome ↔
    (token ≠ [] ∧ ∀ ch ∈ token, '0' ≤ ch ∧ ch ≤ '9') ∨
      ∃ x ds, token = '0' :: x :: ds ∧ (x = 'x' ∨ x = 'X') ∧ ds ≠ [] ∧
        ∀ ch ∈ ds, ('0' ≤ ch ∧ ch ≤ '9') ∨ ('a' ≤ ch ∧ ch ≤ 'f') ∨ ('A' ≤ ch ∧ ch ≤ 'F')

/-- The value of a token (R84; that its digits are read most significant first is the ordinary reading of a number): a digit
more at the end is ten, or after `0x` sixteen, times the value before, which is 0 for no digit, plus the digit. -/
def Obligations.NumbersAreReadInTheirBase : Prop :=
  (∀ (ds : List Char) (v : Nat) (ch : Char), (∀ x ∈ ds, '0' ≤ x ∧ x ≤ '9') → (ds = [] ∧ v = 0 ∨ number ds = some v) →
      '0' ≤ ch → ch ≤ '9' → number (ds ++ [ch]) = some (10 * v + (ch.toNat - 48))) ∧
    ∀ (x : Char) (ds : List Char) (v : Nat) (ch : Char), x = 'x' ∨ x = 'X' →
      (ds = [] ∧ v = 0 ∨ number ('0' :: x :: ds) = some v) →
      ('0' ≤ ch → ch ≤ '9' → number ('0' :: x :: (ds ++ [ch])) = some (16 * v + (ch.toNat - 48))) ∧
        ('A' ≤ ch → ch ≤ 'F' → number ('0' :: x :: (ds ++ [ch])) = some (16 * v + (ch.toNat - 55))) ∧
        ('a' ≤ ch → ch ≤ 'f' → number ('0' :: x :: (ds ++ [ch])) = some (16 * v + (ch.toNat - 87)))

/-- R85 (the order is the spec's decision D17): the checks on one line in their order (mnemonic, operand count, numeric form, range), and the first failing line
decides the error of the whole assembly, which then yields no binary and no log. -/
def Obligations.FirstFailingCheckDecidesTheError : Prop :=
  (∀ line name operands, tokens line = name :: operands → isComment name = false →
      (kindOfMnemonic name = none → assembleLine line = .error .unknownInstruction) ∧
        (∀ k, kindOfMnemonic name = some k → operands.length ≠ operandCount k →
          assembleLine line = .error .parseError) ∧
        (∀ k, kindOfMnemonic name = some k → operands.length = operandCount k →
          (∃ t ∈ operands, number t = none) → assembleLine line = .error .parseError) ∧
        (∀ i f, parseStatement name operands = .ok i → encode i = .error f →
          assembleLine line = .error (.rangeError f))) ∧
    ∀ (text : List Char) (before after : List (List Char)) (line : List Char) (e : AsmError),
      lines text = before ++ line :: after → (∀ l ∈ before, ∃ r, assembleLine l = .ok r) →
      assembleLine line = .error e →
      ∃ failure, assemble text = .error failure ∧ failure.error = e

/-- R87: the binary is the concatenation of the instructions' wire forms in input order, so `n2` READ_MEM lines and `n4`
others give `2 * n2 + 4 * n4` bytes, and each instruction stands where the lengths of those before it end. -/
def Obligations.BinaryIsTheConcatenationOfWireForms : Prop :=
  ∀ (text : List Char) (r : Assembly) (program : List Instr), assemble text = .ok r →
    program = ((lines text).map parseLine).filterMap (fun p => p.toOption.join) →
    (∀ line ∈ lines text, ∃ p, parseLine line = .ok p) ∧ (∀ i ∈ program, i.wf) ∧
      r.binary = program.flatMap wireForm ∧
      r.binary.length =
        2 * program.countP (fun i => i.kind = .readMem) + 4 * program.countP (fun i => i.kind ≠ .readMem) ∧
      ∀ k i, program[k]? = some i → decode r.binary ((program.take k).map Instr.length).sum = .ok i

/-- The emission log has one record for each instruction, in emission order: the opcode's number, the operands and the bytes
written (R89; the form of a record is the model's choice, log 17). -/
def Obligations.EmissionLogRecordsEachInstruction : Prop :=
  ∀ (text : List Char) (r : Assembly) (program : List Instr), assemble text = .ok r →
    program = ((lines text).map parseLine).filterMap (fun p => p.toOption.join) →
    r.log.map LogRecord.bytes = program.map wireForm ∧
      r.log.map LogRecord.a = program.map (fun i => opcodeOf i.kind) ∧
      r.log.map (fun e => some e.b) = program.map (fun i => operandOf i .b) ∧
      r.log.map (fun e => some e.c) = program.map (fun i => operandOf i .c) ∧
      r.log.map LogRecord.d = program.map (fun i => operandOf i .d) ∧
      r.binary = r.log.flatMap LogRecord.bytes
end

