-- ==== Sys2Proof/Laws/Decode.lean ====
section
/-! SUPPORT. Small lemmas of the codec. -/

namespace Sys2Proof

@[simp] theorem leBytes_length (v : Nat) : ∀ n : Nat, (leBytes v n).length = n
  | 0 => rfl
  | n + 1 => by simp [leBytes, leBytes_length (v / 256) n]

theorem le_lt : ∀ bytes : List Byte, le bytes < 256 ^ bytes.length
  | [] => by simp [le]
  | b :: rest => by
    have := le_lt rest
    have := b.isLt
    simp only [le, List.length_cons, pow_succ]
    omega

/-- `le` inverts `le_bytes` (00_scope.md R8). -/
theorem le_leBytes (v : Nat) : ∀ n : Nat, v < 256 ^ n → le (leBytes v n) = v
  | 0, h => by simp at h; simp [leBytes, le, h]
  | n + 1, h => by
    have hd : v / 256 < 256 ^ n := by
      rw [pow_succ] at h
      omega
    simp only [leBytes, le, le_leBytes (v / 256) n hd, BitVec.toNat_ofNat]
    omega

theorem bits_lt (w hi lo : Nat) : bits w hi lo < 2 ^ (hi + 1 - lo) := by
  unfold bits
  rw [Nat.and_two_pow_sub_one_eq_mod]
  exact Nat.mod_lt _ (Nat.two_pow_pos _)

/-- A field by division and remainder, the form `omega` works with. -/
theorem bits_eq (w hi lo : Nat) : bits w hi lo = w / 2 ^ lo % 2 ^ (hi + 1 - lo) := by
  rw [bits, Nat.and_two_pow_sub_one_eq_mod, Nat.shiftRight_eq_div_pow]

@[simp] theorem kind_fieldsOf (k : Kind) (w : Nat) : (fieldsOf k w).kind = k := by cases k <;> rfl

theorem kindOfOpcode_opcodeOf (k : Kind) : kindOfOpcode (opcodeOf k) = some k := by cases k <;> rfl

theorem opcodeOf_of_kindOfOpcode {a : Nat} {k : Kind} (h : kindOfOpcode a = some k) : opcodeOf k = a := by
  unfold kindOfOpcode at h
  split_ifs at h with h0 h1 h2 h3 <;> simp only [Option.some.injEq] at h <;> subst h <;> simp [opcodeOf, *]

theorem opcodeNibble_eq (b : Byte) : opcodeNibble b = b.toNat % 16 := Nat.and_two_pow_sub_one_eq_mod b.toNat 4

/-- Encoding checks every operand: there is no range error exactly on the well-formed instructions. -/
theorem rangeError?_eq_none (i : Instr) : rangeError? i = none ↔ i.wf := by
  cases i <;> simp only [rangeError?, Instr.wf, Bool.and_eq_true, decide_eq_true_eq] <;> split_ifs <;> simp <;> omega

end Sys2Proof
end

