-- ==== Sys2Proof/Laws/Memory.lean ====
section
/-! SUPPORT. The laws of the data memory: a read after a write, and that a write keeps the canonical form. -/

namespace Sys2Proof.Machine

@[simp] theorem Memory.get_nil (a : Nat) : Memory.get [] a = 0 := rfl

theorem Memory.get_set_of_ne {a x : Nat} (h : x ≠ a) (v : Nat) :
    ∀ m : Memory, Memory.get (Memory.set m a v) x = Memory.get m x
  | [] => by by_cases hv : v = 0 <;> simp [Memory.set, Memory.get, hv, h]
  | (b, w) :: rest => by
    have ih := Memory.get_set_of_ne h v rest
    unfold Memory.set
    split_ifs with h1 h2 h3 h4
    · rfl
    · simp [Memory.get, h]
    · simp [Memory.get, ← h3, h]
    · simp [Memory.get, ← h3, h]
    · simp only [Memory.get, ih]

theorem Memory.wfFrom_mono {n k : Nat} (h : n ≤ k) : ∀ {m : Memory}, Memory.wfFrom k m → Memory.wfFrom n m
  | [], _ => rfl
  | (b, w) :: rest, hm => by
    simp only [Memory.wfFrom, Bool.and_eq_true, decide_eq_true_eq] at hm ⊢
    exact ⟨⟨h.trans hm.1.1, hm.1.2⟩, hm.2⟩

/-- A cell below every listed address reads 0. -/
theorem Memory.get_of_lt {n a : Nat} (h : a < n) : ∀ {m : Memory}, Memory.wfFrom n m → Memory.get m a = 0
  | [], _ => rfl
  | (b, w) :: rest, hm => by
    simp only [Memory.wfFrom, Bool.and_eq_true, decide_eq_true_eq] at hm
    have hb : a ≠ b := by omega
    simp [Memory.get, hb, Memory.get_of_lt (show a < b + 1 by omega) hm.2]

theorem Memory.get_set_same_from (a v : Nat) :
    ∀ {n : Nat} {m : Memory}, Memory.wfFrom n m → Memory.get (Memory.set m a v) a = v
  | _, [], _ => by by_cases hv : v = 0 <;> simp [Memory.set, Memory.get, hv]
  | n, (b, w) :: rest, hm => by
    simp only [Memory.wfFrom, Bool.and_eq_true, decide_eq_true_eq] at hm
    unfold Memory.set
    split_ifs with h1 h2 h3 h4
    · have hb : a ≠ b := by omega
      simp [Memory.get, hb, h2, Memory.get_of_lt (show a < b + 1 by omega) hm.2]
    · simp [Memory.get]
    · rw [h4, h3, Memory.get_of_lt (Nat.lt_succ_self b) hm.2]
    · simp [Memory.get]
    · simp [Memory.get, h3, Memory.get_set_same_from a v hm.2]

/-- A read after a write to the same cell gives the value written. -/
theorem Memory.get_set_same {m : Memory} (h : Memory.wf m) (a v : Nat) : Memory.get (Memory.set m a v) a = v :=
  Memory.get_set_same_from a v h

theorem Memory.wfFrom_set (a v : Nat) :
    ∀ {n : Nat} {m : Memory}, n ≤ a → Memory.wfFrom n m → Memory.wfFrom n (Memory.set m a v)
  | n, [], hn, _ => by by_cases hv : v = 0 <;> simp [Memory.set, Memory.wfFrom, hv, hn]
  | n, (b, w) :: rest, hn, hm => by
    have hm' := hm
    simp only [Memory.wfFrom, Bool.and_eq_true, decide_eq_true_eq] at hm'
    unfold Memory.set
    split_ifs with h1 h2 h3 h4
    · exact hm
    · simp only [Memory.wfFrom, Bool.and_eq_true, decide_eq_true_eq]
      exact ⟨⟨hn, h2⟩, ⟨by omega, hm'.1.2⟩, hm'.2⟩
    · exact Memory.wfFrom_mono (by omega) hm'.2
    · subst h3
      simp only [Memory.wfFrom, Bool.and_eq_true, decide_eq_true_eq]
      exact ⟨⟨hn, h4⟩, hm'.2⟩
    · simp only [Memory.wfFrom, Bool.and_eq_true, decide_eq_true_eq]
      exact ⟨hm'.1, Memory.wfFrom_set a v (by omega) hm'.2⟩

/-- A write keeps the canonical form. -/
theorem Memory.wf_set {m : Memory} (h : Memory.wf m) (a v : Nat) : Memory.wf (Memory.set m a v) :=
  Memory.wfFrom_set a v (Nat.zero_le a) h

/-- What holds of every listed cell and of the written one holds of every listed cell after the write. -/
theorem Memory.all_set {p : Nat × Nat → Bool} {a v : Nat} (hav : p (a, v)) :
    ∀ {m : Memory}, m.all p → (Memory.set m a v).all p
  | [], _ => by by_cases hv : v = 0 <;> simp [Memory.set, hv, hav]
  | (b, w) :: rest, hm => by
    simp only [List.all_cons, Bool.and_eq_true] at hm
    unfold Memory.set
    split_ifs
    · simpa using hm
    · simpa [hav] using hm
    · exact hm.2
    · simpa [hav] using hm.2
    · simpa using ⟨hm.1, by simpa using Memory.all_set hav hm.2⟩

/-- A nonzero cell is listed, so what holds of every listed cell holds of it. -/
theorem Memory.get_of_all {p : Nat × Nat → Bool} {a : Nat} :
    ∀ {m : Memory}, m.all p → Memory.get m a ≠ 0 → p (a, Memory.get m a)
  | [], _, h => absurd rfl h
  | (b, w) :: rest, hm, h => by
    simp only [List.all_cons, Bool.and_eq_true] at hm
    by_cases hab : a = b
    · subst hab
      simpa [Memory.get] using hm.1
    · simp only [Memory.get, hab, if_false] at h ⊢
      exact Memory.get_of_all hm.2 h

end Sys2Proof.Machine
end

