-- ==== Sys2Proof/Laws/State.lean ====
section
/-! SUPPORT. What each update of the state does to each field, by rfl. -/

namespace Sys2Proof.Machine

section Advance
variable (n : Nat) (s : State)
@[simp] theorem advance_pc : (advance n s).pc = s.pc + n := rfl
@[simp] theorem advance_mem : (advance n s).mem = s.mem := rfl
@[simp] theorem advance_status : (advance n s).status = s.status := rfl
@[simp] theorem advance_prog : (advance n s).prog = s.prog := rfl
@[simp] theorem advance_config : (advance n s).config = s.config := rfl
@[simp] theorem advance_progLen : (advance n s).progLen = s.progLen := rfl
@[simp] theorem advance_cell (a : Nat) : (advance n s).cell a = s.cell a := rfl
end Advance

section Halt
variable (s : State)
@[simp] theorem halt_pc : (halt s).pc = s.pc := rfl
@[simp] theorem halt_mem : (halt s).mem = s.mem := rfl
@[simp] theorem halt_status : (halt s).status = { s.status with runState := .halted } := rfl
@[simp] theorem halt_prog : (halt s).prog = s.prog := rfl
@[simp] theorem halt_config : (halt s).config = s.config := rfl
@[simp] theorem halt_progLen : (halt s).progLen = s.progLen := rfl
@[simp] theorem halt_cell (a : Nat) : (halt s).cell a = s.cell a := rfl
end Halt

section TakeFault
variable (f : Fault) (s : State)
@[simp] theorem takeFault_pc : (takeFault f s).pc = s.pc := rfl
@[simp] theorem takeFault_mem : (takeFault f s).mem = s.mem := rfl
@[simp] theorem takeFault_status :
    (takeFault f s).status = { runState := .faulted, cause := f.cause, info := f.info } := rfl
@[simp] theorem takeFault_prog : (takeFault f s).prog = s.prog := rfl
@[simp] theorem takeFault_config : (takeFault f s).config = s.config := rfl
@[simp] theorem takeFault_progLen : (takeFault f s).progLen = s.progLen := rfl
@[simp] theorem takeFault_cell (a : Nat) : (takeFault f s).cell a = s.cell a := rfl
end TakeFault

section Reset
variable (c : Config)
@[simp] theorem resetWith_pc : (State.resetWith c).pc = 0 := rfl
@[simp] theorem resetWith_mem : (State.resetWith c).mem = [] := rfl
@[simp] theorem resetWith_status :
    (State.resetWith c).status = { runState := .idle, cause := .noFault, info := 0 } := rfl
@[simp] theorem resetWith_prog : (State.resetWith c).prog = none := rfl
@[simp] theorem resetWith_config : (State.resetWith c).config = c := rfl
@[simp] theorem resetWith_cell (a : Nat) : (State.resetWith c).cell a = 0 := rfl
end Reset

theorem progLen_of_prog {s : State} {prog : List Byte} (h : s.prog = some prog) : s.progLen = prog.length := by
  simp [State.progLen, h]

end Sys2Proof.Machine
end

