-- ==== Sys2Proof/Laws/Ops.lean ====
section
/-! SUPPORT. Once for each shared operation: everything it can do. -/

namespace Sys2Proof.Machine

theorem memRead_of_lt {a : Nat} {s : State} (h : a < s.config.memSize) : memRead a s = .ok (s.cell a) := if_pos h

theorem memRead_of_le {a : Nat} {s : State} (h : s.config.memSize ≤ a) : memRead a s = .error (.outOfBounds a) :=
  if_neg (Nat.not_lt.mpr h)

theorem memWrite_of_lt {a : Nat} {s : State} (v : Nat) (h : a < s.config.memSize) :
    memWrite a v s = .ok { s with mem := Memory.set s.mem a v } := if_pos h

theorem memWrite_of_le {a : Nat} {s : State} (v : Nat) (h : s.config.memSize ≤ a) :
    memWrite a v s = .error (.outOfBounds a) := if_neg (Nat.not_lt.mpr h)

theorem memRead_cases (a : Nat) (s : State) :
    (a < s.config.memSize ∧ memRead a s = .ok (s.cell a)) ∨
      (s.config.memSize ≤ a ∧ memRead a s = .error (.outOfBounds a)) :=
  (Nat.lt_or_ge a s.config.memSize).imp (fun h => ⟨h, memRead_of_lt h⟩) fun h => ⟨h, memRead_of_le h⟩

theorem memWrite_cases (a v : Nat) (s : State) :
    (a < s.config.memSize ∧ memWrite a v s = .ok { s with mem := Memory.set s.mem a v }) ∨
      (s.config.memSize ≤ a ∧ memWrite a v s = .error (.outOfBounds a)) :=
  (Nat.lt_or_ge a s.config.memSize).imp (fun h => ⟨h, memWrite_of_lt v h⟩) fun h => ⟨h, memWrite_of_le v h⟩

theorem rotate_cases (v n : Nat) :
    (n ≤ 16 ∧ rotate v n = .ok (rot v n)) ∨ (16 < n ∧ rotate v n = .error (.shiftAmount n)) := by
  by_cases h : 16 < n
  · exact .inr ⟨h, if_pos h⟩
  · exact .inl ⟨Nat.not_lt.mp h, if_neg h⟩

@[simp] theorem settle_ok (s t : State) : settle s (.ok t) = .next t := rfl

@[simp] theorem settle_error (s : State) (f : Fault) : settle s (.error f) = .next (takeFault f s) := rfl

/-- The state a completed instruction leaves: one cell set, `pc` advanced. -/
def written (a v n : Nat) (s : State) : State := advance n { s with mem := Memory.set s.mem a v }

section Written
variable (a v n : Nat) (s : State)
@[simp] theorem written_pc : (written a v n s).pc = s.pc + n := rfl
@[simp] theorem written_mem : (written a v n s).mem = Memory.set s.mem a v := rfl
@[simp] theorem written_status : (written a v n s).status = s.status := rfl
@[simp] theorem written_prog : (written a v n s).prog = s.prog := rfl
@[simp] theorem written_config : (written a v n s).config = s.config := rfl
@[simp] theorem written_progLen : (written a v n s).progLen = s.progLen := rfl
theorem written_cell_of_ne {x : Nat} (h : x ≠ a) : (written a v n s).cell x = s.cell x :=
  Memory.get_set_of_ne h v s.mem
theorem written_cell_same (h : Memory.wf s.mem) : (written a v n s).cell a = v := Memory.get_set_same h a v
end Written

end Sys2Proof.Machine
end

