-- ==== Sys2Proof/Laws/Exec.lean ====
section
/-! SUPPORT. What an instruction can do, said once for each meaning and once for `exec`. -/

namespace Sys2Proof.Machine

theorem execLoadConst_cases (b c : Nat) (s : State) :
    (c < s.config.memSize ∧ execLoadConst b c s = .next (written c b 4 s)) ∨
      (s.config.memSize ≤ c ∧ execLoadConst b c s = .next (takeFault (.outOfBounds c) s)) := by
  rcases memWrite_cases c b s with ⟨h, e⟩ | ⟨h, e⟩
  · exact .inl ⟨h, by simp [execLoadConst, direct, immediate, e, bind, Except.bind, pure, Except.pure, written]⟩
  · exact .inr ⟨h, by simp [execLoadConst, direct, immediate, e, bind, Except.bind]⟩

theorem execReadMem_cases (b c : Nat) (s : State) :
    (b < s.config.memSize ∧ c < s.config.memSize ∧ execReadMem b c s = .next (written c (s.cell b) 2 s)) ∨
      (s.config.memSize ≤ b ∧ execReadMem b c s = .next (takeFault (.outOfBounds b) s)) ∨
      (b < s.config.memSize ∧ s.config.memSize ≤ c ∧ execReadMem b c s = .next (takeFault (.outOfBounds c) s)) := by
  rcases memRead_cases b s with ⟨hb, eb⟩ | ⟨hb, eb⟩
  · rcases memWrite_cases c (s.cell b) s with ⟨hc, ec⟩ | ⟨hc, ec⟩
    · exact .inl ⟨hb, hc, by simp [execReadMem, direct, eb, ec, bind, Except.bind, pure, Except.pure, written]⟩
    · exact .inr (.inr ⟨hb, hc, by simp [execReadMem, direct, eb, ec, bind, Except.bind]⟩)
  · exact .inr (.inl ⟨hb, by simp [execReadMem, direct, eb, bind, Except.bind]⟩)

theorem execWriteMem_cases (b c d : Nat) (s : State) :
    (c < s.config.memSize ∧ b + d < s.config.memSize ∧
        execWriteMem b c d s = .next (written (b + d) (s.cell c) 4 s)) ∨
      (s.config.memSize ≤ c ∧ execWriteMem b c d s = .next (takeFault (.outOfBounds c) s)) ∨
      (c < s.config.memSize ∧ s.config.memSize ≤ b + d ∧
        execWriteMem b c d s = .next (takeFault (.outOfBounds (b + d)) s)) := by
  rcases memRead_cases c s with ⟨hc, ec⟩ | ⟨hc, ec⟩
  · rcases memWrite_cases (b + d) (s.cell c) s with ⟨hd, ed⟩ | ⟨hd, ed⟩
    · exact .inl ⟨hc, hd,
        by simp [execWriteMem, direct, baseOffset, ec, ed, bind, Except.bind, pure, Except.pure, written]⟩
    · exact .inr (.inr ⟨hc, hd, by simp [execWriteMem, direct, baseOffset, ec, ed, bind, Except.bind]⟩)
  · exact .inr (.inl ⟨hc, by simp [execWriteMem, direct, ec, bind, Except.bind]⟩)

/-- The first condition met, in the order of 60_exceptions.md R170, decides. -/
theorem execShiftRight_cases (b c d : Nat) (s : State) :
    (b < s.config.memSize ∧ c < s.config.memSize ∧ d < s.config.memSize ∧ s.cell d ≤ 16 ∧
        s.cell c < s.config.memSize ∧
        execShiftRight b c d s = .next (written (s.cell c) (rot (s.cell b) (s.cell d)) 4 s)) ∨
      (s.config.memSize ≤ b ∧ execShiftRight b c d s = .next (takeFault (.outOfBounds b) s)) ∨
      (b < s.config.memSize ∧ s.config.memSize ≤ c ∧
        execShiftRight b c d s = .next (takeFault (.outOfBounds c) s)) ∨
      (b < s.config.memSize ∧ c < s.config.memSize ∧ s.config.memSize ≤ d ∧
        execShiftRight b c d s = .next (takeFault (.outOfBounds d) s)) ∨
      (b < s.config.memSize ∧ c < s.config.memSize ∧ d < s.config.memSize ∧ 16 < s.cell d ∧
        execShiftRight b c d s = .next (takeFault (.shiftAmount (s.cell d)) s)) ∨
      (b < s.config.memSize ∧ c < s.config.memSize ∧ d < s.config.memSize ∧ s.cell d ≤ 16 ∧
        s.config.memSize ≤ s.cell c ∧
        execShiftRight b c d s = .next (takeFault (.outOfBounds (s.cell c)) s)) := by
  rcases memRead_cases b s with ⟨hb, eb⟩ | ⟨hb, eb⟩
  · rcases memRead_cases c s with ⟨hc, ec⟩ | ⟨hc, ec⟩
    · rcases memRead_cases d s with ⟨hd, ed⟩ | ⟨hd, ed⟩
      · rcases rotate_cases (s.cell b) (s.cell d) with ⟨hr, er⟩ | ⟨hr, er⟩
        · rcases memWrite_cases (s.cell c) (rot (s.cell b) (s.cell d)) s with ⟨hw, ew⟩ | ⟨hw, ew⟩
          · exact .inl ⟨hb, hc, hd, hr, hw, by
              simp [execShiftRight, direct, indirect, eb, ec, ed, er, ew, bind, Except.bind, pure, Except.pure,
                written]⟩
          · refine .inr (.inr (.inr (.inr (.inr ⟨hb, hc, hd, hr, hw, ?_⟩))))
            simp [execShiftRight, direct, indirect, eb, ec, ed, er, ew, bind, Except.bind]
        · refine .inr (.inr (.inr (.inr (.inl ⟨hb, hc, hd, hr, ?_⟩))))
          simp [execShiftRight, direct, indirect, eb, ec, ed, er, bind, Except.bind]
      · refine .inr (.inr (.inr (.inl ⟨hb, hc, hd, ?_⟩)))
        simp [execShiftRight, direct, indirect, eb, ec, ed, bind, Except.bind]
    · refine .inr (.inr (.inl ⟨hb, hc, ?_⟩))
      simp [execShiftRight, direct, indirect, eb, ec, bind, Except.bind]
  · exact .inr (.inl ⟨hb, by simp [execShiftRight, direct, eb, bind, Except.bind]⟩)

/-- A fault an effect may raise in `s`: an address not below `MEM_SIZE`, or an amount above 16. -/
def EffectFault (s : State) (f : Fault) : Prop :=
  (∃ a, s.config.memSize ≤ a ∧ f = .outOfBounds a) ∨ (∃ n, 16 < n ∧ f = .shiftAmount n)

/-- The cells whose values an instruction's result is made of. -/
def sourcesInBounds (i : Instr) (s : State) : Prop :=
  match i with
  | .readMem b _ => b < s.config.memSize
  | .loadConst _ _ => True
  | .shiftRight b c d =>
    b < s.config.memSize ∧ c < s.config.memSize ∧ d < s.config.memSize ∧ s.cell d ≤ 16
  | .writeMem _ c _ => c < s.config.memSize

/-- Every instruction ends its step in one of two ways: it completes, writing one cell below `MEM_SIZE` and advancing by
its own length, or it takes a fault. -/
theorem exec_cases (i : Instr) (s : State) :
    (sourcesInBounds i s ∧ destination i s < s.config.memSize ∧
        exec i s = .next (written (destination i s) (resultOf i s) i.length s)) ∨
      (∃ f, EffectFault s f ∧ exec i s = .next (takeFault f s)) := by
  cases i with
  | readMem b c =>
    rcases execReadMem_cases b c s with ⟨hb, hc, e⟩ | ⟨hb, e⟩ | ⟨hb, hc, e⟩
    · exact .inl ⟨hb, hc, e⟩
    · exact .inr ⟨_, .inl ⟨_, hb, rfl⟩, e⟩
    · exact .inr ⟨_, .inl ⟨_, hc, rfl⟩, e⟩
  | loadConst b c =>
    rcases execLoadConst_cases b c s with ⟨hc, e⟩ | ⟨hc, e⟩
    · exact .inl ⟨trivial, hc, e⟩
    · exact .inr ⟨_, .inl ⟨_, hc, rfl⟩, e⟩
  | shiftRight b c d =>
    rcases execShiftRight_cases b c d s with
      ⟨hb, hc, hd, hr, hw, e⟩ | ⟨h, e⟩ | ⟨_, h, e⟩ | ⟨_, _, h, e⟩ | ⟨_, _, _, h, e⟩ | ⟨_, _, _, _, h, e⟩
    · exact .inl ⟨⟨hb, hc, hd, hr⟩, hw, e⟩
    · exact .inr ⟨_, .inl ⟨_, h, rfl⟩, e⟩
    · exact .inr ⟨_, .inl ⟨_, h, rfl⟩, e⟩
    · exact .inr ⟨_, .inl ⟨_, h, rfl⟩, e⟩
    · exact .inr ⟨_, .inr ⟨_, h, rfl⟩, e⟩
    · exact .inr ⟨_, .inl ⟨_, h, rfl⟩, e⟩
  | writeMem b c d =>
    rcases execWriteMem_cases b c d s with ⟨hc, hd, e⟩ | ⟨hc, e⟩ | ⟨hc, hd, e⟩
    · exact .inl ⟨hc, hd, e⟩
    · exact .inr ⟨_, .inl ⟨_, hc, rfl⟩, e⟩
    · exact .inr ⟨_, .inl ⟨_, hd, rfl⟩, e⟩

end Sys2Proof.Machine
end

