-- ==== Sys2Proof/Laws/PerInstr.lean ====
section
/-! SUPPORT. A statement for all instructions, one lemma per constructor. -/

namespace Sys2Proof.Laws

/-- The wire form has the length of the kind, whatever the operands (30_encoding.md R71). -/
def EncodedLength.Statement (i : Instr) : Prop := (wireForm i).length = lengthOf i.kind

theorem EncodedLength.readMem (b c : Nat) : EncodedLength.Statement (.readMem b c) := leBytes_length _ _

theorem EncodedLength.loadConst (b c : Nat) : EncodedLength.Statement (.loadConst b c) := leBytes_length _ _

theorem EncodedLength.shiftRight (b c d : Nat) : EncodedLength.Statement (.shiftRight b c d) := leBytes_length _ _

theorem EncodedLength.writeMem (b c d : Nat) : EncodedLength.Statement (.writeMem b c d) := leBytes_length _ _

end Sys2Proof.Laws
end

