-- ==== Sys2Proof/Laws/Step.lean ====
section
/-! SUPPORT. What a step can do, said once. -/

namespace Sys2Proof.Machine

theorem fetch_cases (prog : List Byte) (pc : Nat) :
    (prog.length ≤ pc ∧ fetch prog pc = .endOfProgram) ∨
      (pc < prog.length ∧ ∃ e, decode prog pc = .error e ∧ fetch prog pc = .bad (faultOfDecode e)) ∨
      (pc < prog.length ∧ ∃ i, decode prog pc = .ok i ∧ fetch prog pc = .instruction i) := by
  by_cases h : prog.length ≤ pc
  · exact .inl ⟨h, if_pos h⟩
  · have hpc := Nat.not_le.mp h
    cases hd : decode prog pc with
    | error e => exact .inr (.inl ⟨hpc, e, rfl, by simp [fetch, h, hd]⟩)
    | ok i => exact .inr (.inr ⟨hpc, i, rfl, by simp [fetch, h, hd]⟩)

/-- A step that answers a next state starts in RUNNING with a program, and ends the program, takes the fault of a failed
fetch, or executes the decoded instruction (40_fetch_execute.md R100). -/
theorem step_cases {s t : State} (h : step s = .next t) :
    s.status.runState = .running ∧ ∃ prog, s.prog = some prog ∧
      ((prog.length ≤ s.pc ∧ t = halt s) ∨
        (s.pc < prog.length ∧ ∃ e, decode prog s.pc = .error e ∧ t = takeFault (faultOfDecode e) s) ∨
        (s.pc < prog.length ∧ ∃ i, decode prog s.pc = .ok i ∧ exec i s = .next t)) := by
  unfold step at h
  cases hr : s.status.runState <;> simp only [hr, reduceCtorEq] at h
  cases hp : s.prog with
  | none => simp [hp] at h
  | some prog =>
    simp only [hp] at h
    refine ⟨rfl, prog, rfl, ?_⟩
    rcases fetch_cases prog s.pc with ⟨hl, hf⟩ | ⟨hl, e, hd, hf⟩ | ⟨hl, i, hd, hf⟩ <;> simp only [hf] at h
    · exact .inl ⟨hl, by simpa using h.symm⟩
    · exact .inr (.inl ⟨hl, e, hd, by simpa using h.symm⟩)
    · exact .inr (.inr ⟨hl, i, hd, h⟩)

end Sys2Proof.Machine
end

