-- ==== Sys2Proof/Laws/Safety.lean ====
section
/-! SUPPORT. The parts of the invariant as propositions, and what they say of a cell. Later proofs rewrite with these
before anything else, so that no `decide` stands under a rewritten state. -/

namespace Sys2Proof.Machine

theorem legalConfig_iff (c : Config) : legalConfig c ↔ 1 ≤ c.memSize ∧ 21 ≤ c.cellWidth := by
  simp [legalConfig]

theorem cellsOk_iff (s : State) :
    cellsOk s ↔ ∀ cell ∈ s.mem, cell.1 < s.config.memSize ∧ cell.2 < 2 ^ 21 := by
  simp [cellsOk]

theorem pcOk_iff (s : State) : pcOk s ↔ s.pc % 2 = 0 ∧ s.pc ≤ s.progLen := by
  simp [pcOk]

theorem recordOk_unknownOpcode (memSize info : Nat) :
    recordOk memSize .unknownOpcode info ↔ info < 16 ∧ kindOfOpcode info = none := by
  simp [recordOk]

theorem recordOk_truncatedInstruction (memSize info : Nat) :
    recordOk memSize .truncatedInstruction info ↔ 1 ≤ info ∧ info ≤ 3 := by
  simp [recordOk]

theorem recordOk_outOfBounds (memSize info : Nat) : recordOk memSize .outOfBounds info ↔ memSize ≤ info := by
  simp [recordOk]

theorem recordOk_shiftAmount (memSize info : Nat) : recordOk memSize .shiftAmount info ↔ 16 < info := by
  simp [recordOk]

theorem statusOk_iff (s : State) :
    statusOk s ↔
      (s.status.runState = .faulted → recordOk s.config.memSize s.status.cause s.status.info) ∧
        (s.status.runState ≠ .faulted → s.status.cause = .noFault ∧ s.status.info = 0) := by
  by_cases h : s.status.runState = .faulted <;> simp [statusOk, h]

theorem programOk_iff (s : State) :
    programOk s ↔
      s.progLen < Config.progLenLimit ∧ (s.status.runState = .idle → s.pc = 0) ∧
        (s.status.runState ≠ .idle → s.prog.isSome) ∧ (s.status.runState = .halted → s.pc = s.progLen) := by
  cases h : s.status.runState <;> simp [programOk, h]

theorem inv_iff (s : State) :
    s.inv ↔ legalConfig s.config ∧ Memory.wf s.mem ∧ cellsOk s ∧ pcOk s ∧ statusOk s ∧ programOk s := by
  simp [State.inv, and_assoc]

theorem cell_lt_of_cellsOk {s : State} (h : cellsOk s) (a : Nat) : s.cell a < 2 ^ 21 := by
  by_cases h0 : s.cell a = 0
  · rw [h0]; norm_num
  · have := Memory.get_of_all h h0
    simp only [Bool.and_eq_true, decide_eq_true_eq] at this
    exact this.2

/-- No cell is stored at or beyond `MEM_SIZE`. -/
theorem cell_of_memSize_le {s : State} (h : cellsOk s) {a : Nat} (ha : s.config.memSize ≤ a) : s.cell a = 0 := by
  by_contra h0
  have := Memory.get_of_all h h0
  simp only [Bool.and_eq_true, decide_eq_true_eq] at this
  omega

/-- A completed instruction keeps the cells in range when its destination and its result are. -/
theorem cellsOk_written {s : State} (h : cellsOk s) {a v : Nat} (ha : a < s.config.memSize) (hv : v < 2 ^ 21)
    (n : Nat) : cellsOk (written a v n s) :=
  Memory.all_set ((Bool.and_eq_true _ _).mpr ⟨decide_eq_true ha, decide_eq_true hv⟩) h

end Sys2Proof.Machine
end

