-- ==== Sys2Proof/Tests/Slice0.lean ====
section
/-! SUPPORT. Tests whose expected results are the spec's own (95_test_vectors.md, or a table worked by hand from the rule
named), then for every statement with hypotheses a concrete input that meets them, clause by clause. -/

namespace Sys2Proof.Tests

open Sys2Proof Sys2Proof.Machine

/-- A RUNNING engine with the default parameters. -/
def engine (prog : List Byte) (mem : Memory) (pc : Nat) : State :=
  { State.reset with
    pc := pc
    mem := mem
    prog := some prog
    status := { runState := .running, cause := .noFault, info := 0 } }

/-- The engine with another `MEM_SIZE`. -/
def engineOf (memSize : Nat) (prog : List Byte) (mem : Memory) : State :=
  { engine prog mem 0 with config := { memSize := memSize, cellWidth := 32 } }

/-- An engine in a given run state, its program at its end. -/
def stopped (runState : RunState) : State :=
  { engine [0x00#8, 0x00#8] [(2, 5)] 2 with status := { runState := runState, cause := .noFault, info := 0 } }

/-- What a step leaves: `pc`, memory, run state, cause code and number. -/
def after (s : State) : Option (Nat × Memory × RunState × Nat × Nat) :=
  match step s with
  | .next t => some (t.pc, t.mem, t.status.runState, t.status.cause.code, t.status.info)
  | .fault _ => none
  | .refused _ => none

/-! ## Well-formedness: each check refuses an ill-formed term (R68) -/

theorem test_wf_readMem_b : (Instr.readMem 64 0).wf = false := by decide
theorem test_wf_readMem_c : (Instr.readMem 0 64).wf = false := by decide
theorem test_wf_loadConst_b : (Instr.loadConst 2097152 0).wf = false := by decide
theorem test_wf_loadConst_c : (Instr.loadConst 0 64).wf = false := by decide
theorem test_wf_shiftRight_b : (Instr.shiftRight 64 0 0).wf = false := by decide
theorem test_wf_shiftRight_c : (Instr.shiftRight 0 64 0).wf = false := by decide
theorem test_wf_shiftRight_d : (Instr.shiftRight 0 0 64).wf = false := by decide
theorem test_wf_writeMem_b : (Instr.writeMem 64 0 0).wf = false := by decide
theorem test_wf_writeMem_c : (Instr.writeMem 0 64 0).wf = false := by decide
theorem test_wf_writeMem_d : (Instr.writeMem 0 0 4096).wf = false := by decide
theorem test_wf_maxima :
    (Instr.readMem 63 63).wf ∧ (Instr.loadConst 2097151 63).wf ∧ (Instr.shiftRight 63 63 63).wf ∧
      (Instr.writeMem 63 63 4095).wf := by decide

/-! ## Decoding: words of parts 2.1 and 2.3 of the test vectors, and one of each kind written bit by bit -/

/-- R64: C = 000011, B = 000010, opcode 0000. -/
theorem test_decode_readMem_bits :
    decode [0b00100000#8, 0b00001100#8] 0 = .ok (.readMem 2 3) := rfl
/-- R61: no field 0, C = 000010, B = 5 in 21 bits, opcode 1011. -/
theorem test_decode_loadConst_bits :
    decode [0b01011011#8, 0b00000000#8, 0b00000000#8, 0b00000100#8] 0 = .ok (.loadConst 5 2) := rfl
/-- R62: no field 0, D = 000011, C = 000010, B = 000001, opcode 1101. -/
theorem test_decode_shiftRight_bits :
    decode [0b00011101#8, 0b00001000#8, 0b00000011#8, 0b00000000#8] 0 = .ok (.shiftRight 1 2 3) := rfl
/-- R63: no field 0, D = 001111101000, C = 010100, B = 001010, opcode 1111. -/
theorem test_decode_writeMem_bits :
    decode [0b10101111#8, 0b01010000#8, 0b11101000#8, 0b00000011#8] 0 = .ok (.writeMem 10 20 1000) := rfl
theorem test_decode_loadConst_maxima :
    decode [0xFB#8, 0xFF#8, 0xFF#8, 0x7F#8] 0 = .ok (.loadConst 2097151 63) := rfl
theorem test_decode_readMem_mixed : decode [0x50#8, 0xA9#8] 0 = .ok (.readMem 21 42) := rfl
theorem test_decode_reserved_bits :
    decode [0x5B#8, 0x00#8, 0x00#8, 0x84#8] 0 = .ok (.loadConst 5 2) ∧
      decode [0x0D#8, 0x08#8, 0xC1#8, 0xFF#8] 0 = .ok (.shiftRight 0 2 1) ∧
      decode [0x0F#8, 0x04#8, 0x00#8, 0xF0#8] 0 = .ok (.writeMem 0 1 0) := ⟨rfl, rfl, rfl⟩
theorem test_decode_illegal_nibble :
    decode [0x1C#8, 0x00#8, 0x00#8, 0x00#8] 0 = .error (.unknownOpcode 12) ∧
      decode [0xFE#8] 0 = .error (.unknownOpcode 14) := ⟨rfl, rfl⟩
theorem test_decode_short_buffers :
    decode [0x00#8] 0 = .error (.truncatedInstruction 1) ∧
      decode [0x5B#8, 0x00#8, 0x00#8] 0 = .error (.truncatedInstruction 3) ∧
      decode [0xFF#8, 0xFF#8] 0 = .error (.truncatedInstruction 2) := ⟨rfl, rfl, rfl⟩

/-! ## Encoding: part 2.1 and 2.2 of the test vectors -/

theorem test_encode_loadConst : encode (.loadConst 0x1234 0) = .ok [0x4B#8, 0x23#8, 0x01#8, 0x00#8] := rfl
theorem test_encode_readMem : encode (.readMem 21 42) = .ok [0x50#8, 0xA9#8] := rfl
theorem test_encode_shiftRight : encode (.shiftRight 0 2 1) = .ok [0x0D#8, 0x08#8, 0x01#8, 0x00#8] := rfl
theorem test_encode_writeMem : encode (.writeMem 10 20 1000) = .ok [0xAF#8, 0x50#8, 0xE8#8, 0x03#8] := rfl
theorem test_encode_names_the_first_bad_field : encode (.writeMem 64 64 4096) = .error .b := rfl

/-! ## One step: parts 2.4 to 2.8 of the test vectors -/

theorem test_loadConst_sets_the_cell :
    after (engine [0xFB#8, 0xFF#8, 0xFF#8, 0x7F#8] [(63, 7)] 0) = some (4, [(63, 0x1FFFFF)], .running, 0, 0) := by
  decide
theorem test_loadConst_zero_clears_the_cell :
    after (engine [0x0B#8, 0x00#8, 0x00#8, 0x04#8] [(2, 5)] 0) = some (4, [], .running, 0, 0) := by decide
theorem test_readMem_copies_at_two_modulo_four :
    after (engine [0x00#8, 0x00#8, 0xF0#8, 0xFB#8] [(63, 0x1FFFFF)] 2) =
      some (4, [(62, 0x1FFFFF), (63, 0x1FFFFF)], .running, 0, 0) := by decide
theorem test_readMem_of_an_unwritten_cell :
    after (engine [0x50#8, 0x10#8] [(4, 9)] 0) = some (2, [], .running, 0, 0) := by decide
theorem test_writeMem_adds_the_base :
    after (engine [0xAF#8, 0x04#8, 0xF4#8, 0x01#8] [(1, 100)] 0) =
      some (4, [(1, 100), (510, 100)], .running, 0, 0) := by decide
theorem test_writeMem_past_the_end_faults :
    after (engine [0xFF#8, 0x03#8, 0xC1#8, 0x03#8] [(0, 9)] 0) = some (0, [(0, 9)], .faulted, 3, 1024) := by decide
theorem test_shiftRight_of_scenario_4 :
    after (engine [0x0D#8, 0x08#8, 0x01#8, 0x00#8] [(0, 0x1234), (1, 4), (2, 9)] 0) =
      some (4, [(0, 0x1234), (1, 4), (2, 9), (9, 0x4123)], .running, 0, 0) := by decide
theorem test_shiftRight_amount_before_bounds :
    after (engine [0x0D#8, 0x08#8, 0x01#8, 0x00#8] [(1, 17), (2, 2000)] 0) =
      some (0, [(1, 17), (2, 2000)], .faulted, 4, 17) := by decide
theorem test_fetch_faults :
    after (engine [0xFE#8] [] 0) = some (0, [], .faulted, 1, 14) ∧
      after (engine [0x5B#8, 0x00#8, 0x00#8] [] 0) = some (0, [], .faulted, 2, 3) := by decide
theorem test_empty_program_halts : after (engine [] [] 0) = some (0, [], .halted, 0, 0) := by decide

/-! ## The rotate function: the table of part 2.7 and R143 -/

theorem test_rot_below_sixteen_bits :
    [rot 0x1234 4, rot 0x1234 0, rot 0x1234 16, rot 0x0001 1, rot 0x8000 15, rot 0xABCD 8, rot 5 5] =
      [0x4123, 0x1234, 0x1234, 0x8000, 0x0001, 0xCDAB, 0x2800] := by decide
theorem test_rot_above_sixteen_bits :
    [rot 0x10000 4, rot 0x12345 8, rot 0x1FFFFF 4, rot 0x1FFFFF 1, rot 0x18000 15, rot 0x100000 12, rot 0x1F0001 16] =
      [0x1000, 0x4523, 0x1FFFF, 0xFFFFF, 0x3, 0x100, 0x1F] := by decide

/-! ## The host's probe and the host's operations -/

theorem test_probe_decodes_every_row :
    decodeTableWord 16 0x0000 = some (.readMem 0 0) ∧ decodeTableWord 32 0x0000000B = some (.loadConst 0 0) ∧
      decodeTableWord 32 0x0003081D = some (.shiftRight 1 2 3) ∧
      decodeTableWord 32 0x0003081F = some (.writeMem 1 2 3) ∧ decodeTableWord 16 0x000C = none := by decide
theorem test_probe_runs_after_reset :
    after (State.reset.withFetchWord 32 0x0400005B) = some (4, [(2, 5)], .running, 0, 0) ∧
      after (State.reset.withFetchWord 16 0x0C20) = some (2, [], .running, 0, 0) := by decide

/-- Scenario 1 of part 1: two steps, then the dump of cells 2 and 3. -/
theorem test_scenario_1 :
    (boot [0x5B#8, 0x00#8, 0x00#8, 0x04#8] State.reset).bind (fun s => dump 2 3 (run 2 s)) = .ok [(2, 5), (3, 0)] := rfl
theorem test_dump_refuses_a_running_engine : dump 0 0 (engine [] [] 0) = .error (.notHalted .running) := rfl
theorem test_start_needs_a_load : start State.reset = .error .programNotLoaded := rfl
theorem test_power_on_refuses_narrow_cells : powerOn { memSize := 1024, cellWidth := 20 } = .error .illegalConfig := rfl

/-! ## The assembler: parts 1 and 3 of the test vectors -/

/-- `LOAD_CONST 5 2`, `# c`, an empty line, `READ_MEM 2 3`. -/
def scenario2 : List Char :=
  ['L', 'O', 'A', 'D', '_', 'C', 'O', 'N', 'S', 'T', ' ', '5', ' ', '2', '\n', ' ', '#', ' ', 'c', '\n', '\n',
    'R', 'E', 'A', 'D', '_', 'M', 'E', 'M', '\t', '2', ' ', '3', '\n']

theorem test_assemble_scenario_2 :
    (assemble scenario2).toOption.map Assembly.binary = some [0x5B#8, 0x00#8, 0x00#8, 0x04#8, 0x20#8, 0x0C#8] := by
  decide
/-- The statements of scenarios 3 and 4 that part 1 spells with three operands. -/
theorem test_assemble_three_operands :
    assembleLine ['W', 'R', 'I', 'T', 'E', '_', 'M', 'E', 'M', ' ', '0', ' ', '1', ' ', '0'] =
        .ok (some { a := 15, b := 0, c := 1, d := some 0, bytes := [0x0F#8, 0x04#8, 0x00#8, 0x00#8] }) ∧
      assembleLine ['S', 'H', 'I', 'F', 'T', '_', 'R', 'I', 'G', 'H', 'T', ' ', '0', ' ', '2', ' ', '1'] =
        .ok (some { a := 13, b := 0, c := 2, d := some 1, bytes := [0x0D#8, 0x08#8, 0x01#8, 0x00#8] }) := ⟨rfl, rfl⟩
/-- R89: the record of `LOAD_CONST 5 2`. -/
theorem test_log_record :
    assembleLine ['L', 'O', 'A', 'D', '_', 'C', 'O', 'N', 'S', 'T', ' ', '5', ' ', '2'] =
      .ok (some { a := 11, b := 5, c := 2, d := none, bytes := [0x5B#8, 0x00#8, 0x00#8, 0x04#8] }) := rfl
/-- Scenario of an unknown mnemonic: `FOO 1 2` on the second line. -/
theorem test_unknown_mnemonic :
    assemble ['#', '\n', 'F', 'O', 'O', ' ', '1', ' ', '2'] =
      .error { line := 2, error := .unknownInstruction } := rfl
theorem test_numbers :
    number ['0', 'x', '1', '2', '3', '4'] = some 0x1234 ∧ number ['0', 'X', 'a', 'F'] = some 0xAF ∧
      number ['1', '0', '0', '0'] = some 1000 ∧ number ['-', '1'] = none ∧ number ['0', 'x'] = none ∧
      number [] = none := by decide

/-! ## Witnesses: inputs that meet the hypotheses of the statements, clause by clause -/

theorem witness_decodeOfEncode :
    encode (.writeMem 63 63 4095) = .ok [0xFF#8, 0xFF#8, 0xFF#8, 0x0F#8] ∧
      encode (.readMem 63 63) = .ok [0xF0#8, 0xFF#8] := ⟨rfl, rfl⟩
theorem witness_formats :
    (Instr.loadConst 2097151 63).wf ∧ (Instr.shiftRight 63 63 63).wf ∧ (Instr.writeMem 63 63 4095).wf ∧
      (Instr.readMem 63 63).wf := by decide
theorem witness_reservedBits :
    (Instr.writeMem 63 63 4095).wf ∧ [0xFF#8, 0xFF#8, 0xFF#8, 0xFF#8].length = (Instr.writeMem 63 63 4095).length ∧
      decode [0xFF#8, 0xFF#8, 0xFF#8, 0xFF#8] 0 = .ok (.writeMem 63 63 4095) := ⟨rfl, rfl, rfl⟩
theorem witness_illegalNibble :
    ([0xFE#8] : List Byte)[0]? = some 0xFE#8 ∧
      (0xFE#8).toNat % 16 ∈ [1, 2, 3, 4, 5, 6, 7, 8, 9, 10, 12, 14] ∧
      (engine [0xFE#8] [] 0).status.runState = .running ∧ (engine [0xFE#8] [] 0).prog = some [0xFE#8] ∧
      (engine [0xFE#8] [] 0).pc = 0 := by decide
theorem witness_decoderFields_readMem :
    ([0xF0#8, 0xFF#8] : List Byte)[0]? = some 0xF0#8 ∧ (0xF0#8).toNat % 16 = 0 ∧
      0 + 2 ≤ ([0xF0#8, 0xFF#8] : List Byte).length ∧ ([0xF0#8] : List Byte).length < 0 + 2 := by decide
theorem witness_decoderFields_short :
    ([0x0B#8, 0x00#8, 0x00#8] : List Byte)[0]? = some 0x0B#8 ∧ (0x0B#8).toNat % 16 = 11 ∧
      ([0x0B#8, 0x00#8, 0x00#8] : List Byte).length < 0 + 4 := by decide
theorem witness_decoderFields_whole :
    0 + 4 ≤ ([0x0B#8, 0x00#8, 0x00#8, 0x00#8] : List Byte).length ∧ (0x0B#8).toNat % 16 = 11 ∧
      (0x0D#8).toNat % 16 = 13 ∧ (0x0F#8).toNat % 16 = 15 := by decide
theorem witness_decodedInstruction : decode [0x00#8, 0x00#8, 0xF0#8, 0xFF#8] 2 = .ok (.readMem 63 63) := rfl
theorem witness_encodedProgramRuns :
    (∀ i ∈ [Instr.loadConst 5 2, Instr.readMem 2 3], i.wf) ∧
      ∃ s0, boot ([Instr.loadConst 5 2, Instr.readMem 2 3].flatMap wireForm) State.reset = .ok s0 :=
  ⟨by decide, _, rfl⟩

/-- READ_MEM 2 3 at `pc` 0 of a RUNNING engine. -/
def atReadMem : State := engine [0x20#8, 0x0C#8] [(2, 5)] 0

theorem witness_stepExecutes :
    atReadMem.status.runState = .running ∧ atReadMem.prog = some [0x20#8, 0x0C#8] ∧
      decode [0x20#8, 0x0C#8] atReadMem.pc = .ok (.readMem 2 3) ∧
      ∃ t, exec (.readMem 2 3) atReadMem = .next t ∧ t.status.runState ≠ .faulted :=
  ⟨rfl, rfl, rfl, _, rfl, by decide⟩
/-- Also an engine at which nothing decodes. -/
theorem witness_engineSteps :
    (∀ i, decode [0xFE#8] 0 ≠ .ok i) ∧ (engine [0xFE#8] [] 0).status.runState = .running ∧
      (engine [0xFE#8] [] 0).prog = some [0xFE#8] ∧ State.reset.status.runState ≠ .running ∧ atReadMem.status.runState = .running ∧ atReadMem.prog.isSome ∧
      0 ≠ destination (.readMem 2 3) atReadMem :=
  ⟨fun i h => (by cases h), by decide⟩
/-- Also the hypothesis of EmptyBinaryHaltsAtOnce. -/
theorem witness_endOfProgram :
    (engine [0x00#8, 0x00#8] [] 2).status.runState = .running ∧
      (engine [0x00#8, 0x00#8] [] 2).prog = some [0x00#8, 0x00#8] ∧
      ([0x00#8, 0x00#8] : List Byte).length ≤ (engine [0x00#8, 0x00#8] [] 2).pc ∧
      ∃ s0, boot [] State.reset = .ok s0 :=
  ⟨rfl, rfl, by decide, _, rfl⟩
/-- Also the hypotheses of ProgramNeverChanges and StepKeepsMemoryCanonical. -/
theorem witness_pcAdvances :
    (∃ t, step atReadMem = .next t ∧ t.status.runState = .running ∧ Memory.wf atReadMem.mem) ∧
      (∃ t, step (engine [0x00#8, 0x00#8] [] 2) = .next t ∧ t.status.runState ≠ .running) ∧
      ∃ t, step (engine [0xFE#8] [] 0) = .next t ∧ t.status.runState ≠ .running :=
  ⟨⟨_, rfl, rfl, by decide⟩, ⟨_, rfl, by decide⟩, _, rfl, by decide⟩
theorem witness_controlFlow :
    ∃ t t', atReadMem.prog = (engine [0x20#8, 0x0C#8] [] 0).prog ∧ atReadMem.pc = (engine [0x20#8, 0x0C#8] [] 0).pc ∧
      step atReadMem = .next t ∧ step (engine [0x20#8, 0x0C#8] [] 0) = .next t' ∧
      t.status.runState ≠ .faulted ∧ t'.status.runState ≠ .faulted :=
  ⟨_, _, rfl, rfl, rfl, rfl, by decide, by decide⟩
/-- Also the hypotheses of StepKeepsTheInvariant and of a read in ReadAnswersTheCellOrOutOfBounds. -/
theorem witness_invariant :
    atReadMem.inv ∧ atReadMem.status.runState = .running ∧ (∃ t, step atReadMem = .next t ∧ t.status.runState = .running) ∧
      (run 1 atReadMem).status.runState = .running ∧ memRead 1023 atReadMem = .ok 0 :=
  ⟨by decide, rfl, ⟨_, rfl, rfl⟩, by decide, rfl⟩

theorem witness_loadConst :
    Memory.wf (engineOf 64 [] [(2, 5)]).mem ∧ 63 < (engineOf 64 [] [(2, 5)]).config.memSize ∧
      (engineOf 63 [] []).config.memSize ≤ 63 := by decide
theorem witness_readMem :
    Memory.wf (engineOf 63 [] [(2, 5)]).mem ∧ 62 < (engineOf 63 [] [(2, 5)]).config.memSize ∧
      0 < (engineOf 63 [] [(2, 5)]).config.memSize ∧ (engineOf 63 [] [(2, 5)]).config.memSize ≤ 63 := by decide
theorem witness_writeMem :
    Memory.wf (engine [] [(30, 77)] 0).mem ∧ 30 < (engine [] [(30, 77)] 0).config.memSize ∧
      baseOffset 63 960 < (engine [] [(30, 77)] 0).config.memSize ∧
      (engine [] [(30, 77)] 0).config.memSize ≤ baseOffset 63 961 ∧ (engineOf 63 [] []).config.memSize ≤ 63 ∧
      (Instr.writeMem 63 30 4095).wf := by decide
/-- Amounts 16 and 17, destinations 1023 and 1024, and addresses at a `MEM_SIZE` of 63. -/
theorem witness_shiftRight :
    Memory.wf [(1, 16), (2, 1023), (3, 17), (4, 1024)] ∧ 2 < (engineOf 1024 [] []).config.memSize ∧
      (engine [] [(1, 16), (2, 1023), (3, 17), (4, 1024)] 0).cell 1 ≤ 16 ∧
      (engine [] [(1, 16), (2, 1023), (3, 17), (4, 1024)] 0).cell 2 < 1024 ∧
      16 < (engine [] [(1, 16), (2, 1023), (3, 17), (4, 1024)] 0).cell 3 ∧
      1024 ≤ (engine [] [(1, 16), (2, 1023), (3, 17), (4, 1024)] 0).cell 4 ∧
      62 < (engineOf 63 [] []).config.memSize ∧ (engineOf 63 [] []).config.memSize ≤ 63 := by decide
theorem witness_changesOnlyTheDestination :
    (∃ t, exec (.shiftRight 0 2 1) (engine [] [(0, 0x1234), (1, 4), (2, 9)] 0) = .next t) ∧
      8 ≠ destination (.shiftRight 0 2 1) (engine [] [(0, 0x1234), (1, 4), (2, 9)] 0) :=
  ⟨⟨_, rfl⟩, by decide⟩
theorem witness_writtenAddresses :
    (engineOf 5000 [] [(1, 7)]).inv ∧ (Instr.writeMem 63 1 4095).wf ∧
      (∃ t, exec (.writeMem 63 1 4095) (engineOf 5000 [] [(1, 7)]) = .next t) ∧
      lastWritable (Instr.writeMem 63 1 4095).kind < 4159 :=
  ⟨by decide, by decide, ⟨_, rfl⟩, by decide⟩
theorem witness_onlyComputedStores :
    64 ≤ (engineOf 64 [] [(2, 64)]).config.memSize ∧ (Instr.writeMem 63 0 1).wf ∧
      (engineOf 64 [] [(2, 64)]).config.memSize ≤ 63 + 1 ∧ (Instr.shiftRight 0 2 1).wf ∧
      (engineOf 64 [] [(2, 64)]).cell 1 ≤ 16 ∧
      (engineOf 64 [] [(2, 64)]).config.memSize ≤ (engineOf 64 [] [(2, 64)]).cell 2 := by decide
/-- LOAD_CONST writes 16, then 1023, to cell 5 beside a pointer to cell 1023 in cell 6 and an amount of 16 in cell 7. -/
theorem witness_storeIsVisible :
    Memory.wf (engine [] [(6, 1023), (7, 16)] 0).mem ∧ 1023 < (engine [] [(6, 1023), (7, 16)] 0).config.memSize ∧
      (∃ t, exec (.loadConst 16 5) (engine [] [(6, 1023), (7, 16)] 0) = .next t ∧ t.status.runState ≠ .faulted ∧
        t.cell 6 < 1024 ∧ t.cell 7 ≤ 16 ∧
        resultOf (.loadConst 16 5) (engine [] [(6, 1023), (7, 16)] 0) ≤ 16 ∧
        ∃ u, exec (.readMem 0 1) t = .next u ∧
          destination (.readMem 0 1) t ≠ destination (.loadConst 16 5) (engine [] [(6, 1023), (7, 16)] 0)) ∧
      resultOf (.loadConst 1023 5) (engine [] [(6, 1023), (7, 16)] 0) < 1024 ∧ baseOffset 63 960 < 1024 :=
  ⟨by decide, by decide, ⟨_, rfl, by decide, by decide, by decide, by decide, _, rfl, by decide⟩, by decide, by decide⟩
/-- The boundary values of the four statements about the rotate function. -/
theorem witness_rotate : (16 : Nat) ≤ 16 ∧ 0xFFFF < 2 ^ 16 ∧ 0x1FFFFF < 2 ^ 21 := by decide
theorem witness_readAndWrite :
    1023 < (engine [] [] 0).config.memSize ∧ (engine [] [] 0).config.memSize ≤ 1024 ∧
      1023 < Config.standard.memSize ∧ Memory.wf (engine [] [(2, 5)] 0).mem ∧ 0 ≠ 1023 := by decide
theorem witness_canonicalMemories : Memory.wf [(0, 1), (5, 2)] ∧ Memory.get [(0, 1), (5, 2)] 5 = 2 := by decide

theorem witness_faultEntry :
    ∃ t, step (engine [0xFE#8] [] 0) = .next t ∧ t.status.runState = .faulted := ⟨_, rfl, rfl⟩
/-- One faulting step for each row of the table of R163. -/
theorem witness_faultTable :
    (∃ t, step (engine [0xFE#8] [] 0) = .next t ∧ t.status.cause = .unknownOpcode) ∧
      (∃ t, step (engine [0x5B#8, 0x00#8, 0x00#8] [] 0) = .next t ∧ t.status.cause = .truncatedInstruction) ∧
      (∃ t, step (engine [0xFF#8, 0x03#8, 0xC1#8, 0x03#8] [] 0) = .next t ∧ t.status.cause = .outOfBounds) ∧
      ∃ t, step (engine [0x0D#8, 0x00#8, 0x01#8, 0x00#8] [(1, 17)] 0) = .next t ∧ t.status.cause = .shiftAmount :=
  ⟨⟨_, rfl, rfl⟩, ⟨_, rfl, rfl⟩, ⟨_, rfl, rfl⟩, _, rfl, rfl⟩
theorem witness_fetchFaults :
    (engine [0xFE#8] [] 0).status.runState = .running ∧ ([0xFE#8] : List Byte)[0]? = some 0xFE#8 ∧
      (0xFE#8).toNat % 16 ∈ [1, 2, 3, 4, 5, 6, 7, 8, 9, 10, 12, 14] ∧
      (0x20#8).toNat % 16 = 0 ∧ ([0x20#8] : List Byte).length < 0 + 2 ∧
      (0x5B#8).toNat % 16 ∈ [11, 13, 15] ∧ ([0x5B#8, 0x00#8, 0x00#8] : List Byte).length < 0 + 4 := by decide
theorem witness_stoppedEngine :
    (stopped .halted).status.runState = .halted ∧ (stopped .faulted).status.runState = .faulted := by decide
theorem witness_reset : (stopped .halted).config = State.reset.config := rfl
theorem witness_load :
    State.reset.status.runState = .idle ∧ State.reset.prog = none ∧ ([] : List Byte).length < 2 ^ 31 ∧
      (stopped .halted).status.runState ≠ .idle := by decide
theorem witness_load_too_long : 2 ^ 31 ≤ (List.replicate (2 ^ 31) (0x00#8)).length :=
  (List.length_replicate (n := 2 ^ 31) (a := 0x00#8)).ge
theorem witness_second_load :
    ({ State.reset with prog := some [0xFE#8] } : State).status.runState = .idle ∧
      ({ State.reset with prog := some [0xFE#8] } : State).prog = some [0xFE#8] ∧
      ([0x00#8, 0x00#8] : List Byte).length < 2 ^ 31 := by decide
theorem witness_start :
    ({ State.reset with prog := some [0x00#8, 0x00#8] } : State).status.runState = .idle ∧
      (stopped .halted).status.runState ≠ .idle ∧ State.reset.prog = none ∧
      ∃ s0, boot [0x00#8, 0x00#8] State.reset = .ok s0 := ⟨rfl, by decide, rfl, _, rfl⟩
theorem witness_hostDuringRun :
    atReadMem.status.runState = .running ∧ (stopped .faulted).status.runState ≠ .running := by decide
theorem witness_dump :
    (stopped .halted).status.runState = .halted ∧ (1023 : Nat) ≤ 1023 ∧ 1023 < (stopped .halted).config.memSize ∧
      (2 : Nat) < 3 ∧ (stopped .halted).config.memSize ≤ 1024 ∧ (stopped .idle).status.runState ≠ .halted := by decide
theorem witness_resetInvariant : 1 ≤ (Config.mk 1 21).memSize ∧ 21 ≤ (Config.mk 1 21).cellWidth := by decide

/-- A reachable HALTED state: power on, load, start and one step of the empty program. -/
theorem witness_reachable : ∃ s, Reachable s ∧ s.status.runState = .halted :=
  ⟨_, .step (.start (.load (.powerOn (c := Config.standard) rfl) (bytes := []) rfl) rfl) rfl, rfl⟩
theorem witness_cellWidths :
    ∃ s s' t t', powerOn { memSize := 1024, cellWidth := 21 } = .ok s ∧ powerOn { memSize := 1024, cellWidth := 32 } = .ok s' ∧
      boot [0x00#8, 0x00#8] s = .ok t ∧ boot [0x00#8, 0x00#8] s' = .ok t' :=
  ⟨_, _, _, _, rfl, rfl, rfl, rfl⟩

theorem witness_skippedLines :
    tokens [' ', '\t'] = [] ∧ tokens [' ', '#', 'x', ' ', 'y'] = ['#' :: ['x']] ++ [['y']] := by decide
theorem witness_statements :
    number ['5'] = some 5 ∧ number ['0', 'x', 'F'] = some 15 ∧ number ['0'] = some 0 := by decide
/-- No digit, a digit and the last digits of each range. -/
theorem witness_numberBases :
    number ['9'] = some 9 ∧ number ['0', 'x', 'F'] = some 15 ∧ number ['0', 'X', 'f'] = some 15 ∧
      '0' ≤ '9' ∧ '9' ≤ '9' ∧ 'A' ≤ 'F' ∧ 'F' ≤ 'F' ∧ 'a' ≤ 'f' ∧ 'f' ≤ 'f' := by decide
/-- One line for each check of R85. -/
theorem witness_lineChecks :
    (tokens ['F', 'O', 'O', ' ', '1'] = [['F', 'O', 'O'], ['1']] ∧ isComment ['F', 'O', 'O'] = false ∧
        kindOfMnemonic ['F', 'O', 'O'] = none) ∧
      (kindOfMnemonic (mnemonic .readMem) = some .readMem ∧ [['1']].length ≠ operandCount .readMem) ∧
      ([['1'], ['-', '1']].length = operandCount .readMem ∧ number ['-', '1'] = none) := by decide
theorem witness_rangeCheck :
    parseStatement (mnemonic .readMem) [['6', '4'], ['0']] = .ok (.readMem 64 0) ∧
      encode (.readMem 64 0) = .error .b := ⟨rfl, rfl⟩
theorem witness_firstFailingLine :
    lines ['#', '\n', 'F'] = [['#']] ++ ['F'] :: [] ∧ assembleLine ['#'] = .ok none ∧
      assembleLine ['F'] = .error .unknownInstruction := ⟨rfl, rfl, rfl⟩
/-- Also the hypotheses of EmissionLogRecordsEachInstruction. -/
theorem witness_binary :
    ∃ r, assemble scenario2 = .ok r ∧
      ((lines scenario2).map parseLine).filterMap (fun p => p.toOption.join) = [.loadConst 5 2, .readMem 2 3] :=
  ⟨_, rfl, rfl⟩

end Sys2Proof.Tests
end

/-! # The family 10_state.md: the invariant, the program counter and the reset state -/

section
/-! ## The decoder: what an answer says -/

namespace Sys2Proof

/-- The answers of the decoder, in the order of its tests (R72 to R75, R77, log 8). -/
theorem decode_cases (prog : List Byte) (pc : Nat) :
    (prog.length ≤ pc ∧ decode prog pc = .error (.truncatedInstruction 0)) ∨
      ∃ byte, prog[pc]? = some byte ∧
        ((kindOfOpcode (opcodeNibble byte) = none ∧
            decode prog pc = .error (.unknownOpcode (opcodeNibble byte))) ∨
          ∃ k, kindOfOpcode (opcodeNibble byte) = some k ∧
            ((prog.length < pc + lengthOf k ∧
                decode prog pc = .error (.truncatedInstruction (prog.length - pc))) ∨
              (pc + lengthOf k ≤ prog.length ∧
                decode prog pc = .ok (fieldsOf k (conceptualWord k (le (progRead prog pc (lengthOf k)))))))) := by
  cases hb : prog[pc]? with
  | none => exact .inl ⟨List.getElem?_eq_none_iff.mp hb, by simp [decode, hb]⟩
  | some byte =>
    refine .inr ⟨byte, rfl, ?_⟩
    cases hk : kindOfOpcode (opcodeNibble byte) with
    | none => exact .inl ⟨rfl, by simp [decode, hb, hk]⟩
    | some k =>
      refine .inr ⟨k, rfl, ?_⟩
      by_cases hl : prog.length < pc + lengthOf k
      · exact .inl ⟨hl, by simp [decode, hb, hk, hl]⟩
      · exact .inr ⟨Nat.not_lt.mp hl, by simp [decode, hb, hk, hl]⟩

theorem decode_ok {prog : List Byte} {pc : Nat} {i : Instr} (h : decode prog pc = .ok i) :
    pc + i.length ≤ prog.length ∧
      i = fieldsOf i.kind (conceptualWord i.kind (le (progRead prog pc i.length))) := by
  rcases decode_cases prog pc with ⟨_, e⟩ | ⟨_, _, ⟨_, e⟩ | ⟨k, _, ⟨_, e⟩ | ⟨hl, e⟩⟩⟩
  · exact nomatch h.symm.trans e
  · exact nomatch h.symm.trans e
  · exact nomatch h.symm.trans e
  · obtain rfl := Except.ok.inj (h.symm.trans e)
    simpa [Instr.length] using hl

/-- Extracted fields fit the widths they are read with (R68, R75). -/
theorem wf_fieldsOf (k : Kind) (w : Nat) : (fieldsOf k w).wf := by
  cases k with
  | readMem => simpa [fieldsOf, Instr.wf] using ⟨bits_lt w 25 20, bits_lt w 31 26⟩
  | loadConst => simpa [fieldsOf, Instr.wf] using ⟨bits_lt w 24 4, bits_lt w 30 25⟩
  | shiftRight => simpa [fieldsOf, Instr.wf] using ⟨⟨bits_lt w 9 4, bits_lt w 15 10⟩, bits_lt w 21 16⟩
  | writeMem => simpa [fieldsOf, Instr.wf] using ⟨⟨bits_lt w 9 4, bits_lt w 15 10⟩, bits_lt w 27 16⟩

theorem wf_of_decode_ok {prog : List Byte} {pc : Nat} {i : Instr} (h : decode prog pc = .ok i) : i.wf := by
  rw [(decode_ok h).2]
  exact wf_fieldsOf _ _

/-- The encoded lengths of R71. -/
theorem length_eq (i : Instr) : i.length = if i.kind = .readMem then 2 else 4 := by cases i <;> rfl

theorem length_even (i : Instr) : i.length % 2 = 0 := by
  rw [length_eq]
  split <;> rfl

theorem lengthOf_le (k : Kind) : lengthOf k ≤ 4 := by cases k <;> decide

theorem opcodeNibble_lt (b : Byte) : opcodeNibble b < 16 := by
  rw [opcodeNibble_eq]
  omega

end Sys2Proof
end

section
/-! ## The data memory: the canonical form is unique -/

namespace Sys2Proof.Machine

@[simp] theorem Memory.get_cons_same (a v : Nat) (m : Memory) : Memory.get ((a, v) :: m) a = v := if_pos rfl

theorem Memory.get_cons_of_ne {a b : Nat} (h : a ≠ b) (v : Nat) (m : Memory) :
    Memory.get ((b, v) :: m) a = Memory.get m a := if_neg h

theorem Memory.wfFrom_cons (n b w : Nat) (m : Memory) :
    Memory.wfFrom n ((b, w) :: m) ↔ n ≤ b ∧ w ≠ 0 ∧ Memory.wfFrom (b + 1) m := by
  simp [Memory.wfFrom, and_assoc]

/-- A cell that does not read 0 is not below the first listed address. -/
theorem Memory.le_of_get_ne_zero {n a : Nat} {m : Memory} (hm : Memory.wfFrom n m) (h : Memory.get m a ≠ 0) :
    n ≤ a := by
  by_contra hn
  exact h (Memory.get_of_lt (Nat.not_le.mp hn) hm)

/-- The head of a canonical memory is its first nonzero cell, so it is at or below the head of any canonical memory
that reads alike. -/
theorem Memory.head_le {n b w c x : Nat} {m m' : Memory} (hm : Memory.wfFrom n ((b, w) :: m)) (hx : x ≠ 0)
    (h : Memory.get ((b, w) :: m) c = Memory.get ((c, x) :: m') c) : b ≤ c := by
  obtain ⟨_, hw, hm⟩ := (Memory.wfFrom_cons _ _ _ _).mp hm
  refine Memory.le_of_get_ne_zero ((Memory.wfFrom_cons b b w m).mpr ⟨le_rfl, hw, hm⟩) ?_
  rwa [h, Memory.get_cons_same]

/-- Taking off the same head cell keeps "reads alike": below it and at it both tails read 0. -/
theorem Memory.get_tail_eq {b w : Nat} {m m' : Memory} (hm : Memory.wfFrom (b + 1) m)
    (hm' : Memory.wfFrom (b + 1) m')
    (h : ∀ a, Memory.get ((b, w) :: m) a = Memory.get ((b, w) :: m') a) (a : Nat) :
    Memory.get m a = Memory.get m' a := by
  by_cases ha : a = b
  · rw [ha, Memory.get_of_lt (Nat.lt_succ_self b) hm, Memory.get_of_lt (Nat.lt_succ_self b) hm']
  · simpa only [Memory.get_cons_of_ne ha] using h a

theorem Memory.eq_of_get_eq :
    ∀ {n n' : Nat} {m m' : Memory}, Memory.wfFrom n m → Memory.wfFrom n' m' →
      (∀ a, Memory.get m a = Memory.get m' a) → m = m'
  | _, _, [], [], _, _, _ => rfl
  | _, _, [], (c, x) :: _, _, hm', h => by
    obtain ⟨_, hx, _⟩ := (Memory.wfFrom_cons _ _ _ _).mp hm'
    exact absurd (h c) (by simpa using hx.symm)
  | _, _, (b, w) :: _, [], hm, _, h => by
    obtain ⟨_, hw, _⟩ := (Memory.wfFrom_cons _ _ _ _).mp hm
    exact absurd (h b) (by simpa using hw)
  | _, _, (b, w) :: m, (c, x) :: m', hm, hm', h => by
    obtain ⟨_, hw, htail⟩ := (Memory.wfFrom_cons _ _ _ _).mp hm
    obtain ⟨_, hx, htail'⟩ := (Memory.wfFrom_cons _ _ _ _).mp hm'
    obtain rfl : b = c := le_antisymm (Memory.head_le hm hx (h c)) (Memory.head_le hm' hw (h b).symm)
    obtain rfl : w = x := by simpa using h b
    rw [Memory.eq_of_get_eq htail htail' (Memory.get_tail_eq htail htail' h)]

/-- Settles O36: a canonical memory is determined by what it reads, head by head. -/
theorem canonicalMemoriesThatReadAlikeAreEqual : Obligations.CanonicalMemoriesThatReadAlikeAreEqual :=
  fun _ _ hm hm' h => Memory.eq_of_get_eq hm hm' h

end Sys2Proof.Machine
end

section
/-! ## What a step does, down to the state it answers -/

namespace Sys2Proof.Machine

/-- A fault a step of the program `prog` can take in `s`: a failed decode at `pc` before its end, or a fault of the decoded
instruction's effect. -/
def StepFault (prog : List Byte) (s : State) (f : Fault) : Prop :=
  (s.pc < prog.length ∧ ∃ e, decode prog s.pc = .error e ∧ f = faultOfDecode e) ∨
    ((∃ i, decode prog s.pc = .ok i) ∧ EffectFault s f)

/-- A step ends the program, takes a fault, or completes the decoded instruction: `step_cases` and `exec_cases` in one. -/
theorem step_outcomes {s t : State} (h : step s = .next t) :
    s.status.runState = .running ∧ ∃ prog, s.prog = some prog ∧
      ((prog.length ≤ s.pc ∧ t = halt s) ∨
        (∃ f, StepFault prog s f ∧ t = takeFault f s) ∨
        ∃ i, decode prog s.pc = .ok i ∧ sourcesInBounds i s ∧ destination i s < s.config.memSize ∧
          t = written (destination i s) (resultOf i s) i.length s) := by
  obtain ⟨hr, prog, hp, hc⟩ := step_cases h
  refine ⟨hr, prog, hp, ?_⟩
  rcases hc with hend | ⟨hl, e, hd, ht⟩ | ⟨_, i, hd, hx⟩
  · exact .inl hend
  · exact .inr (.inl ⟨_, .inl ⟨hl, e, hd, rfl⟩, ht⟩)
  · rcases exec_cases i s with ⟨hsrc, hdst, e⟩ | ⟨f, hf, e⟩ <;> rw [e] at hx
    · exact .inr (.inr ⟨i, hd, hsrc, hdst, (Host.Outcome.next.inj hx).symm⟩)
    · exact .inr (.inl ⟨f, .inr ⟨⟨i, hd⟩, hf⟩, (Host.Outcome.next.inj hx).symm⟩)

theorem step_of_length_le {s : State} {prog : List Byte} (hr : s.status.runState = .running)
    (hp : s.prog = some prog) (hl : prog.length ≤ s.pc) : step s = .next (halt s) := by
  simp [step, hr, hp, fetch, hl]

/-- Settles O18: the end and a fault leave `pc`, a completed instruction advances it by its own length. -/
theorem pcAdvancesByTheEncodedLength : Obligations.PcAdvancesByTheEncodedLength := by
  intro s t h
  obtain ⟨hr, prog, hp, ⟨_, rfl⟩ | ⟨f, _, rfl⟩ | ⟨i, hd, _, _, rfl⟩⟩ := step_outcomes h
  · simp
  · simp
  · exact ⟨fun _ => ⟨prog, i, hp, hd, by rw [written_pc, length_eq]⟩, fun hn => absurd hr hn⟩

end Sys2Proof.Machine
end

section
/-! ## What a step computes stays in range -/

namespace Sys2Proof.Machine

/-- The rotation of a 21-bit value fits 21 bits: its first term is no greater than the value, its second is masked to 16
bits (R145). -/
theorem rot_lt {v : Nat} (hv : v < 2 ^ 21) (n : Nat) : rot v n < 2 ^ 21 :=
  Nat.or_lt_two_pow ((Nat.shiftRight_le v n).trans_lt hv) (Nat.and_le_right.trans_lt (by norm_num))

theorem resultOf_lt {i : Instr} {s : State} (hc : cellsOk s) (hw : i.wf) : resultOf i s < 2 ^ 21 := by
  cases i with
  | readMem b c => exact cell_lt_of_cellsOk hc b
  | loadConst b c =>
    simp only [Instr.wf, Bool.and_eq_true, decide_eq_true_eq] at hw
    exact hw.1
  | shiftRight b c d => exact rot_lt (cell_lt_of_cellsOk hc b) _
  | writeMem b c d => exact cell_lt_of_cellsOk hc c

/-- A failed fetch records an illegal nibble, or the 1 to 3 bytes left (R163 to R165). -/
theorem recordOk_faultOfDecode (memSize : Nat) {prog : List Byte} {pc : Nat} {e : DecodeError}
    (hl : pc < prog.length) (h : decode prog pc = .error e) :
    recordOk memSize (faultOfDecode e).cause (faultOfDecode e).info := by
  rcases decode_cases prog pc with ⟨hn, _⟩ | ⟨byte, _, ⟨hk, he⟩ | ⟨k, _, ⟨hk, he⟩ | ⟨_, he⟩⟩⟩
  · omega
  · obtain rfl := Except.error.inj (h.symm.trans he)
    exact (recordOk_unknownOpcode _ _).mpr ⟨opcodeNibble_lt byte, hk⟩
  · obtain rfl := Except.error.inj (h.symm.trans he)
    have hk4 := lengthOf_le k
    have hleft : prog.length - pc ≤ 3 := by omega
    exact (recordOk_truncatedInstruction _ _).mpr ⟨Nat.sub_pos_of_lt hl, hleft⟩
  · exact nomatch h.symm.trans he

theorem recordOk_of_effectFault {s : State} {f : Fault} (h : EffectFault s f) :
    recordOk s.config.memSize f.cause f.info := by
  rcases h with ⟨a, ha, rfl⟩ | ⟨n, hn, rfl⟩
  · exact (recordOk_outOfBounds _ _).mpr ha
  · exact (recordOk_shiftAmount _ _).mpr hn

theorem recordOk_of_stepFault {prog : List Byte} {s : State} {f : Fault} (h : StepFault prog s f) :
    recordOk s.config.memSize f.cause f.info := by
  rcases h with ⟨hl, e, hd, rfl⟩ | ⟨_, hf⟩
  · exact recordOk_faultOfDecode _ hl hd
  · exact recordOk_of_effectFault hf

end Sys2Proof.Machine
end

section
/-! ## The invariant under each update of the state -/

namespace Sys2Proof.Machine

theorem inv_halt {s : State} (h : s.inv) (hr : s.status.runState = .running) (hend : s.progLen ≤ s.pc) :
    (halt s).inv := by
  obtain ⟨hconfig, hwf, hcells, hpc, hstatus, hprog⟩ := (inv_iff s).mp h
  obtain ⟨hlen, _, hsome, _⟩ := (programOk_iff s).mp hprog
  refine (inv_iff _).mpr ⟨hconfig, hwf, hcells, hpc, (statusOk_iff _).mpr ?_, (programOk_iff _).mpr ?_⟩
  · simpa using ((statusOk_iff s).mp hstatus).2 (by simp [hr])
  · exact ⟨hlen, nofun, fun _ => hsome (by simp [hr]), fun _ => le_antisymm ((pcOk_iff s).mp hpc).2 hend⟩

theorem inv_takeFault {s : State} {f : Fault} (h : s.inv) (hr : s.status.runState = .running)
    (hf : recordOk s.config.memSize f.cause f.info) : (takeFault f s).inv := by
  obtain ⟨hconfig, hwf, hcells, hpc, _, hprog⟩ := (inv_iff s).mp h
  obtain ⟨hlen, _, hsome, _⟩ := (programOk_iff s).mp hprog
  refine (inv_iff _).mpr ⟨hconfig, hwf, hcells, hpc, (statusOk_iff _).mpr ?_, (programOk_iff _).mpr ?_⟩
  · exact ⟨fun _ => hf, fun hn => absurd rfl hn⟩
  · exact ⟨hlen, nofun, fun _ => hsome (by simp [hr]), nofun⟩

theorem inv_written {s : State} {a v n : Nat} (h : s.inv) (hr : s.status.runState = .running)
    (ha : a < s.config.memSize) (hv : v < 2 ^ 21) (heven : n % 2 = 0) (hn : s.pc + n ≤ s.progLen) :
    (written a v n s).inv := by
  obtain ⟨hconfig, hwf, hcells, hpc, hstatus, hprog⟩ := (inv_iff s).mp h
  obtain ⟨hpc2, _⟩ := (pcOk_iff s).mp hpc
  obtain ⟨hlen, _, hsome, _⟩ := (programOk_iff s).mp hprog
  refine (inv_iff _).mpr ⟨hconfig, Memory.wf_set hwf a v, cellsOk_written hcells ha hv n, (pcOk_iff _).mpr ?_,
    hstatus, (programOk_iff _).mpr ?_⟩
  · simp only [written_pc, written_progLen]
    omega
  · simpa [hr] using ⟨hlen, hsome (by simp [hr])⟩

/-- Settles O49: each of the three ends of a step keeps the invariant; the decoder keeps `pc` inside the program and the
operands in range. -/
theorem stepKeepsTheInvariant : Obligations.StepKeepsTheInvariant := by
  intro s t hinv h
  obtain ⟨hr, prog, hp, hc⟩ := step_outcomes h
  have hlen := progLen_of_prog hp
  rcases hc with ⟨hend, rfl⟩ | ⟨f, hf, rfl⟩ | ⟨i, hd, _, hdst, rfl⟩
  · exact inv_halt hinv hr (hlen ▸ hend)
  · exact inv_takeFault hinv hr (recordOk_of_stepFault hf)
  · obtain ⟨_, _, hcells, _⟩ := (inv_iff s).mp hinv
    exact inv_written hinv hr hdst (resultOf_lt hcells (wf_of_decode_ok hd)) (length_even i)
      (hlen ▸ (decode_ok hd).1)

end Sys2Proof.Machine
end

section
/-! ## Reset and the host's operations -/

namespace Sys2Proof.Machine

@[simp] theorem resetWith_progLen (c : Config) : (State.resetWith c).progLen = 0 := rfl

theorem inv_resetWith {c : Config} (h : legalConfig c) : (State.resetWith c).inv := by
  refine (inv_iff _).mpr ⟨h, rfl, rfl, (pcOk_iff _).mpr ?_, (statusOk_iff _).mpr ?_, (programOk_iff _).mpr ?_⟩ <;>
    simp [Config.progLenLimit]

/-- Settles O48: every part of the invariant holds of the reset values. -/
theorem resetStateMeetsTheInvariant : Obligations.ResetStateMeetsTheInvariant :=
  ⟨fun c hm hw => inv_resetWith ((legalConfig_iff c).mpr ⟨hm, hw⟩), inv_resetWith rfl, rfl, rfl⟩

theorem powerOn_ok {c : Config} {s : State} (h : powerOn c = .ok s) : legalConfig c ∧ s = State.resetWith c := by
  unfold powerOn at h
  split_ifs at h with hc
  exact ⟨hc, (Except.ok.inj h).symm⟩

/-- An accepted load is in IDLE, of a short enough binary, and sets the program buffer only (R193). -/
theorem load_ok {bytes : List Byte} {s t : State} (h : load bytes s = .ok t) :
    s.status.runState = .idle ∧ bytes.length < Config.progLenLimit ∧ t = { s with prog := some bytes } := by
  unfold load at h
  split_ifs at h with hi hl
  exact ⟨not_not.mp hi, hl, (Except.ok.inj h).symm⟩

/-- An accepted start is in IDLE, after a load, and sets the run state only (R194). -/
theorem start_ok {s t : State} (h : start s = .ok t) :
    s.status.runState = .idle ∧ s.prog.isSome ∧ t = { s with status := { s.status with runState := .running } } := by
  unfold start at h
  split_ifs at h with hi
  cases hp : s.prog with
  | none => simp [hp] at h
  | some prog =>
    simp only [hp, Except.ok.injEq] at h
    exact ⟨not_not.mp hi, rfl, h.symm⟩

theorem inv_load {bytes : List Byte} {s t : State} (hs : s.inv) (h : load bytes s = .ok t) : t.inv := by
  obtain ⟨hidle, hshort, rfl⟩ := load_ok h
  obtain ⟨hconfig, hwf, hcells, _, hstatus, hprog⟩ := (inv_iff s).mp hs
  obtain ⟨_, hzero, _⟩ := (programOk_iff s).mp hprog
  refine (inv_iff _).mpr ⟨hconfig, hwf, hcells, (pcOk_iff _).mpr ?_, hstatus, (programOk_iff _).mpr ?_⟩
  · simp [hzero hidle]
  · simpa [hidle, State.progLen] using ⟨hshort, hzero hidle⟩

theorem inv_start {s t : State} (hs : s.inv) (h : start s = .ok t) : t.inv := by
  obtain ⟨hidle, hsome, rfl⟩ := start_ok h
  obtain ⟨hconfig, hwf, hcells, hpc, hstatus, hprog⟩ := (inv_iff s).mp hs
  obtain ⟨hlen, _⟩ := (programOk_iff s).mp hprog
  refine (inv_iff _).mpr ⟨hconfig, hwf, hcells, hpc, (statusOk_iff _).mpr ?_, (programOk_iff _).mpr ?_⟩
  · simpa using ((statusOk_iff s).mp hstatus).2 (by simp [hidle])
  · exact ⟨hlen, nofun, fun _ => hsome, nofun⟩

/-- Settles O50, by induction on how the state is reached. -/
theorem reachableStatesMeetTheInvariant : Obligations.ReachableStatesMeetTheInvariant := by
  intro s h
  induction h with
  | powerOn h =>
    obtain ⟨hc, rfl⟩ := powerOn_ok h
    exact inv_resetWith hc
  | reset _ ih => exact inv_resetWith ((inv_iff _).mp ih).1
  | load _ h ih => exact inv_load ih h
  | start _ h ih => exact inv_start ih h
  | step _ h ih => exact stepKeepsTheInvariant _ _ ih h

/-- The state a run begins in: the reset state with the binary loaded, RUNNING (R108). -/
theorem boot_ok {bytes : List Byte} {s s0 : State} (h : boot bytes s = .ok s0) :
    s0 = { State.resetWith s.config with
      prog := some bytes, status := { runState := .running, cause := .noFault, info := 0 } } := by
  cases hl : load bytes (resetMachine s) with
  | error r => simp [boot, hl, bind, Except.bind] at h
  | ok loaded =>
    obtain ⟨_, _, rfl⟩ := load_ok hl
    simp only [boot, hl, bind, Except.bind] at h
    exact (start_ok h).2.2

/-- Settles O17: a run of the empty binary begins at its end. -/
theorem emptyBinaryHaltsAtOnce : Obligations.EmptyBinaryHaltsAtOnce := by
  intro s s0 h
  obtain rfl := boot_ok h
  exact ⟨_, step_of_length_le rfl rfl le_rfl, rfl, rfl, fun _ => rfl⟩

end Sys2Proof.Machine
end

/-! # The family 20_memory.md: reads and writes, the canonical form and the addresses an instruction can reach -/

section
/-! ## The two primitives of the data memory -/

namespace Sys2Proof.Machine

/-- A cell's value fits a cell: under the invariant it is below `2^21`, and no legal width is below 21 (R29). -/
theorem cell_lt_two_pow_cellWidth {s : State} (h : s.inv) (a : Nat) : s.cell a < 2 ^ s.config.cellWidth := by
  obtain ⟨hconfig, _, hcells, _⟩ := (inv_iff s).mp h
  calc
    s.cell a < 2 ^ 21 := cell_lt_of_cellsOk hcells a
    _ ≤ 2 ^ s.config.cellWidth := Nat.pow_le_pow_right (by norm_num) ((legalConfig_iff _).mp hconfig).2

theorem memRead_ok {a v : Nat} {s : State} (h : memRead a s = .ok v) : a < s.config.memSize ∧ v = s.cell a := by
  rcases memRead_cases a s with ⟨ha, e⟩ | ⟨_, e⟩
  · exact ⟨ha, Except.ok.inj (h.symm.trans e)⟩
  · exact nomatch h.symm.trans e

/-- A read depends on the bound and on the one cell. -/
theorem memRead_congr {a : Nat} {s t : State} (hconfig : t.config = s.config) (hcell : t.cell a = s.cell a) :
    memRead a t = memRead a s := by
  simp only [memRead, hconfig, hcell]

/-- Settles O34: a read is the bound test and the cell; the invariant bounds the cell. -/
theorem readAnswersTheCellOrOutOfBounds : Obligations.ReadAnswersTheCellOrOutOfBounds := by
  refine ⟨fun _ _ h => memRead_of_lt h, fun _ _ h => memRead_of_le h, fun s a v hinv h => ?_,
    fun _ _ h => memRead_of_lt h⟩
  obtain ⟨_, rfl⟩ := memRead_ok h
  exact cell_lt_two_pow_cellWidth hinv a

/-- Settles O35: the laws of `Memory.set`, seen through `memRead`. -/
theorem writeSetsOneCellOrOutOfBounds : Obligations.WriteSetsOneCellOrOutOfBounds := by
  refine fun s a v hwf => ⟨fun ha => ⟨_, memWrite_of_lt v ha, ?_, fun x hx => ?_, Memory.wf_set hwf a v,
    rfl, rfl, rfl, rfl⟩, fun ha => memWrite_of_le v ha⟩
  · rw [memRead_of_lt (by exact ha)]
    exact congrArg Except.ok (Memory.get_set_same hwf a v)
  · exact memRead_congr rfl (Memory.get_set_of_ne hx v s.mem)

end Sys2Proof.Machine
end

section
/-! ## What every step keeps of the memories -/

namespace Sys2Proof.Machine

/-- Settles O19: none of the three ends of a step touches the program or the parameters. -/
theorem programNeverChanges : Obligations.ProgramNeverChanges := by
  intro s t h
  obtain ⟨_, _, _, ⟨_, rfl⟩ | ⟨_, _, rfl⟩ | ⟨_, _, _, _, rfl⟩⟩ := step_outcomes h
  · exact ⟨rfl, rfl⟩
  · exact ⟨rfl, rfl⟩
  · exact ⟨rfl, rfl⟩

/-- Settles O37: the end and a fault leave memory, a completed instruction sets one cell of it. -/
theorem stepKeepsMemoryCanonical : Obligations.StepKeepsMemoryCanonical := by
  intro s t hwf h
  obtain ⟨_, _, _, ⟨_, rfl⟩ | ⟨_, _, rfl⟩ | ⟨_, _, _, _, rfl⟩⟩ := step_outcomes h
  · exact hwf
  · exact hwf
  · exact Memory.wf_set hwf _ _

end Sys2Proof.Machine
end

section
/-! ## The operand ranges of each instruction (R68) -/

namespace Sys2Proof

theorem wf_readMem_iff (b c : Nat) : (Instr.readMem b c).wf ↔ b < 64 ∧ c < 64 := by
  simp [Instr.wf]

theorem wf_loadConst_iff (b c : Nat) : (Instr.loadConst b c).wf ↔ b < 2097152 ∧ c < 64 := by
  simp [Instr.wf]

theorem wf_shiftRight_iff (b c d : Nat) : (Instr.shiftRight b c d).wf ↔ b < 64 ∧ c < 64 ∧ d < 64 := by
  simp [Instr.wf, and_assoc]

theorem wf_writeMem_iff (b c d : Nat) : (Instr.writeMem b c d).wf ↔ b < 64 ∧ c < 64 ∧ d < 4096 := by
  simp [Instr.wf, and_assoc]

end Sys2Proof
end

section
/-! ## The cell an instruction writes -/

namespace Sys2Proof.Machine

/-- An instruction changes no cell but its destination, whether it completes or faults. -/
theorem exec_cell_of_ne {i : Instr} {s t : State} (h : exec i s = .next t) {a : Nat} (ha : a ≠ destination i s) :
    t.cell a = s.cell a := by
  rcases exec_cases i s with ⟨_, _, e⟩ | ⟨f, _, e⟩
  · obtain rfl := Host.Outcome.next.inj (h.symm.trans e)
    exact written_cell_of_ne _ _ _ _ ha
  · obtain rfl := Host.Outcome.next.inj (h.symm.trans e)
    rfl

/-- The bounds of the table of R42: the width of the address fields, their sum, or the largest value of a cell. -/
theorem destination_le_lastWritable {i : Instr} {s : State} (hc : cellsOk s) (hw : i.wf) :
    destination i s ≤ lastWritable i.kind := by
  cases i with
  | readMem b c =>
    exact Nat.le_of_lt_succ ((wf_readMem_iff b c).mp hw).2
  | loadConst b c =>
    exact Nat.le_of_lt_succ ((wf_loadConst_iff b c).mp hw).2
  | shiftRight b c d => exact Nat.le_sub_one_of_lt (cell_lt_of_cellsOk hc c)
  | writeMem b c d =>
    obtain ⟨hb, _, hd⟩ := (wf_writeMem_iff b c d).mp hw
    simp only [destination, baseOffset, lastWritable, Instr.kind]
    omega

/-- Settles O27: only the destination changes, and it is no greater than the bound of its kind. -/
theorem writtenAddressesStayInRange : Obligations.WrittenAddressesStayInRange := by
  intro i s t hinv hw h a ha
  obtain ⟨_, _, hcells, _⟩ := (inv_iff s).mp hinv
  exact exec_cell_of_ne h ((destination_le_lastWritable hcells hw).trans_lt ha).ne'

end Sys2Proof.Machine
end

section
/-! ## Which instructions run out of bounds -/

namespace Sys2Proof.Machine

/-- A taken fault is a fault with its own cause and number, and no other. -/
theorem faultsWith_takeFault_iff (s : State) (f : Fault) (cause : Cause) (info : Nat) :
    FaultsWith s cause info (takeFault f s) ↔ f.cause = cause ∧ f.info = info := by
  simp [FaultsWith]

/-- A completed instruction has moved `pc`, so it does not look like a fault, whatever the status it started with. -/
theorem not_faultsWith_written {n : Nat} (hn : 0 < n) (s : State) (dst v : Nat) (cause : Cause) (info : Nat) :
    ¬ FaultsWith s cause info (written dst v n s) := by
  rintro ⟨_, hpc, _⟩
  rw [written_pc] at hpc
  omega

theorem length_pos (i : Instr) : 0 < i.length := by
  rw [length_eq]
  split <;> decide

/-- With its three operand cells in bounds SHIFT_RIGHT is the guarded rotation, then the store (R140, R146). -/
theorem exec_shiftRight_of_operands {b c d : Nat} {s : State} (hb : b < s.config.memSize) (hc : c < s.config.memSize)
    (hd : d < s.config.memSize) :
    exec (.shiftRight b c d) s = settle s (do
      let r ← rotate (s.cell b) (s.cell d)
      let t ← memWrite (s.cell c) r s
      pure (advance 4 t)) := by
  simp only [exec, execShiftRight, indirect, direct, memRead_of_lt hb, memRead_of_lt hc, memRead_of_lt hd]
  rfl

/-- With its sources in bounds an instruction is its store and the advance of `pc`. -/
theorem exec_of_sourcesInBounds {i : Instr} {s : State} (h : sourcesInBounds i s) :
    exec i s = settle s (do
      let t ← memWrite (destination i s) (resultOf i s) s
      pure (advance i.length t)) := by
  cases i with
  | readMem b c =>
    simp only [exec, execReadMem, direct, memRead_of_lt h]
    rfl
  | loadConst b c => rfl
  | shiftRight b c d =>
    obtain ⟨hb, hc, hd, hamount⟩ := h
    rw [exec_shiftRight_of_operands hb hc hd, rotate, if_neg (Nat.not_lt.mpr hamount)]
    rfl
  | writeMem b c d =>
    simp only [exec, execWriteMem, direct, memRead_of_lt h]
    rfl

/-- With its sources in bounds an instruction runs out of bounds exactly when its destination does. -/
theorem exec_outOfBounds_iff (i : Instr) {s : State} (h : sourcesInBounds i s) :
    (∃ t a, exec i s = .next t ∧ FaultsWith s .outOfBounds a t) ↔ s.config.memSize ≤ destination i s := by
  have hexec := exec_of_sourcesInBounds h
  constructor
  · rintro ⟨t, a, ht, hfault⟩
    by_contra hdst
    rw [memWrite_of_lt _ (Nat.not_le.mp hdst), ht] at hexec
    obtain rfl := Host.Outcome.next.inj hexec
    exact not_faultsWith_written (length_pos i) s _ _ _ _ hfault
  · intro hdst
    rw [memWrite_of_le _ hdst] at hexec
    exact ⟨_, _, hexec, (faultsWith_takeFault_iff _ _ _ _).mpr ⟨rfl, rfl⟩⟩

/-- An amount above 16 is found before the store, so SHIFT_RIGHT then ends in ShiftAmount (R170, D10). -/
theorem exec_shiftRight_of_amount {b c d : Nat} {s : State} (hb : b < s.config.memSize) (hc : c < s.config.memSize)
    (hd : d < s.config.memSize) (h : 16 < s.cell d) :
    exec (.shiftRight b c d) s = .next (takeFault (.shiftAmount (s.cell d)) s) := by
  rw [exec_shiftRight_of_operands hb hc hd, rotate, if_pos h]
  rfl

/-- Settles O28: operands fit 6 bits, so with `MEM_SIZE` at least 64 every source is in bounds, the amount apart, and the
destination decides; a direct destination is in bounds too. -/
theorem onlyComputedStoresRunOutOfBounds : Obligations.OnlyComputedStoresRunOutOfBounds := by
  intro i s hsize hw
  cases i with
  | readMem b c =>
    obtain ⟨hb, hc⟩ := (wf_readMem_iff b c).mp hw
    rw [exec_outOfBounds_iff (.readMem b c) (hb.trans_le hsize)]
    simpa [destination, direct] using hc.trans_le hsize
  | loadConst b c =>
    obtain ⟨_, hc⟩ := (wf_loadConst_iff b c).mp hw
    rw [exec_outOfBounds_iff (.loadConst b c) trivial]
    simpa [destination, direct] using hc.trans_le hsize
  | shiftRight b c d =>
    obtain ⟨hb, hc, hd⟩ := (wf_shiftRight_iff b c d).mp hw
    replace hb := hb.trans_le hsize
    replace hc := hc.trans_le hsize
    replace hd := hd.trans_le hsize
    by_cases hamount : s.cell d ≤ 16
    · rw [exec_outOfBounds_iff (.shiftRight b c d) ⟨hb, hc, hd, hamount⟩]
      simp [destination, direct, hamount]
    · simp [exec_shiftRight_of_amount hb hc hd (Nat.not_le.mp hamount), faultsWith_takeFault_iff, Fault.cause, hamount]
  | writeMem b c d =>
    obtain ⟨_, hc, _⟩ := (wf_writeMem_iff b c d).mp hw
    rw [exec_outOfBounds_iff (.writeMem b c d) (hc.trans_le hsize)]
    simp [destination, baseOffset]

end Sys2Proof.Machine
end

/-! # The family 30_encoding.md: the codec and the assembler -/

section
/-! ## The wire word of an instruction as a sum of its fields -/

namespace Sys2Proof
open Machine

/-- Fields that do not overlap: OR is addition (R69). -/
theorem or_shiftLeft {x n : Nat} (h : x < 2 ^ n) (y : Nat) : x ||| y <<< n = x + y * 2 ^ n := by
  rw [Nat.or_comm, ← Nat.shiftLeft_add_eq_or_of_lt h, Nat.shiftLeft_eq, Nat.add_comm]

/-- The layout that SHIFT_RIGHT and WRITE_MEM share (R62, R63). -/
theorem or_three_fields {opcode b c : Nat} (ho : opcode < 16) (hb : b < 64) (hc : c < 64) (d : Nat) :
    opcode ||| b <<< 4 ||| c <<< 10 ||| d <<< 16 = opcode + b * 2 ^ 4 + c * 2 ^ 10 + d * 2 ^ 16 := by
  rw [or_shiftLeft (n := 4) ho, or_shiftLeft (n := 10) (by omega), or_shiftLeft (n := 16) (by omega)]

/-- The fields of the wire form at their offsets, the opcode at bits 3:0 (R61 to R64). -/
def fieldSum : Instr → Nat
  | .readMem b c => b * 2 ^ 4 + c * 2 ^ 10
  | .loadConst b c => 11 + b * 2 ^ 4 + c * 2 ^ 25
  | .shiftRight b c d => 13 + b * 2 ^ 4 + c * 2 ^ 10 + d * 2 ^ 16
  | .writeMem b c d => 15 + b * 2 ^ 4 + c * 2 ^ 10 + d * 2 ^ 16

/-- On operands that fit, packing with OR is the sum of the fields; READ_MEM drops the lower half of the word. -/
theorem wireWord_eq_fieldSum {i : Instr} (h : i.wf) : wireWord i = fieldSum i := by
  cases i with
  | readMem b c =>
    obtain ⟨hb, _⟩ := (wf_readMem_iff b c).mp h
    have hpacked : packedWord (.readMem b c) = fieldSum (.readMem b c) * 2 ^ 16 := by
      rw [packedWord, or_shiftLeft (n := 20) (by decide), or_shiftLeft (n := 26) (by omega), fieldSum]
      omega
    simp only [wireWord, Instr.kind, hpacked, Nat.shiftRight_eq_div_pow]
    exact Nat.mul_div_cancel _ (by decide)
  | loadConst b c =>
    obtain ⟨hb, _⟩ := (wf_loadConst_iff b c).mp h
    change packedWord (.loadConst b c) = _
    rw [packedWord, or_shiftLeft (n := 4) (by decide), or_shiftLeft (n := 25) (by omega), fieldSum]
  | shiftRight b c d =>
    obtain ⟨hb, hc, _⟩ := (wf_shiftRight_iff b c d).mp h
    exact or_three_fields (by decide) hb hc d
  | writeMem b c d =>
    obtain ⟨hb, hc, _⟩ := (wf_writeMem_iff b c d).mp h
    exact or_three_fields (by decide) hb hc d

/-- The reserved bits of the wire word are zero (R66, R70). -/
theorem wireWord_lt {i : Instr} (h : i.wf) : wireWord i < 2 ^ reservedFrom i.kind := by
  rw [wireWord_eq_fieldSum h]
  cases i <;> simp only [wf_readMem_iff, wf_loadConst_iff, wf_shiftRight_iff, wf_writeMem_iff] at h <;>
    simp only [fieldSum, Instr.kind, reservedFrom] <;> omega

/-- The low nibble of the wire word is the opcode (R70). -/
theorem wireWord_mod_sixteen {i : Instr} (h : i.wf) : wireWord i % 16 = opcodeOf i.kind := by
  rw [wireWord_eq_fieldSum h]
  cases i <;> simp only [fieldSum, Instr.kind, opcodeOf] <;> omega

/-- A field of the half-word of READ_MEM stands 16 bits higher in its conceptual word (R74). -/
theorem bits_shiftLeft (x n hi lo : Nat) : bits (x <<< n) (hi + n) (lo + n) = bits x hi lo := by
  rw [bits, bits, Nat.add_comm lo n, Nat.shiftRight_add, Nat.shiftLeft_shiftRight,
    show hi + n + 1 - (n + lo) = hi + 1 - lo by omega]

theorem fieldsOf_readMem (x : Nat) :
    fieldsOf .readMem (conceptualWord .readMem x) = .readMem (bits x 9 4) (bits x 15 10) := by
  rw [← bits_shiftLeft x 16 9 4, ← bits_shiftLeft x 16 15 10]
  rfl

/-- Extraction gives back an instruction exactly from its wire word, the reserved bits apart: the fields are the
digits of the word in a mixed base (R75, R78). -/
theorem fieldsOf_eq_iff {i : Instr} (h : i.wf) {x : Nat} (hx : x % 16 = opcodeOf i.kind) :
    fieldsOf i.kind (conceptualWord i.kind x) = i ↔ x % 2 ^ reservedFrom i.kind = wireWord i := by
  rw [wireWord_eq_fieldSum h]
  cases i with
  | readMem b c =>
    obtain ⟨hb, hc⟩ := (wf_readMem_iff b c).mp h
    simp only [Instr.kind, opcodeOf] at hx
    simp only [Instr.kind, fieldsOf_readMem, bits_eq, reservedFrom, fieldSum, Instr.readMem.injEq]
    omega
  | loadConst b c =>
    obtain ⟨hb, hc⟩ := (wf_loadConst_iff b c).mp h
    simp only [Instr.kind, opcodeOf] at hx
    simp only [Instr.kind, fieldsOf, conceptualWord, bits_eq, reservedFrom, fieldSum, Instr.loadConst.injEq]
    omega
  | shiftRight b c d =>
    obtain ⟨hb, hc, hd⟩ := (wf_shiftRight_iff b c d).mp h
    simp only [Instr.kind, opcodeOf] at hx
    simp only [Instr.kind, fieldsOf, conceptualWord, bits_eq, reservedFrom, fieldSum, Instr.shiftRight.injEq]
    omega
  | writeMem b c d =>
    obtain ⟨hb, hc, hd⟩ := (wf_writeMem_iff b c d).mp h
    simp only [Instr.kind, opcodeOf] at hx
    simp only [Instr.kind, fieldsOf, conceptualWord, bits_eq, reservedFrom, fieldSum, Instr.writeMem.injEq]
    omega

end Sys2Proof
end

section
/-! ## The decoder on the bytes that stand at `pc` -/

namespace Sys2Proof
open Machine

theorem kindOfOpcode_eq_some_iff (a : Nat) (k : Kind) : kindOfOpcode a = some k ↔ a = opcodeOf k :=
  ⟨fun h => (opcodeOf_of_kindOfOpcode h).symm, fun h => h ▸ kindOfOpcode_opcodeOf k⟩

/-- A kind's nibble with all its bytes there (R74, R75). -/
theorem decode_of_le {prog : List Byte} {pc : Nat} {byte : Byte} {k : Kind} (hb : prog[pc]? = some byte)
    (hk : byte.toNat % 16 = opcodeOf k) (hl : pc + lengthOf k ≤ prog.length) :
    decode prog pc = .ok (fieldsOf k (conceptualWord k (le (progRead prog pc (lengthOf k))))) := by
  rw [← opcodeNibble_eq, ← kindOfOpcode_eq_some_iff] at hk
  simp [decode, hb, hk, Nat.not_lt.mpr hl]

/-- A kind's nibble with its bytes cut short (R74, decision D4). -/
theorem decode_of_lt {prog : List Byte} {pc : Nat} {byte : Byte} {k : Kind} (hb : prog[pc]? = some byte)
    (hk : byte.toNat % 16 = opcodeOf k) (hl : prog.length < pc + lengthOf k) :
    decode prog pc = .error (.truncatedInstruction (prog.length - pc)) := by
  rw [← opcodeNibble_eq, ← kindOfOpcode_eq_some_iff] at hk
  simp [decode, hb, hk, hl]

/-- The decoder sees nothing of the bytes before and after the instruction's own. -/
theorem decode_append {bytes : List Byte} {k : Kind} (hlen : bytes.length = lengthOf k)
    (hk : le bytes % 16 = opcodeOf k) (before after : List Byte) :
    decode (before ++ (bytes ++ after)) before.length = .ok (fieldsOf k (conceptualWord k (le bytes))) := by
  have hread : progRead (before ++ (bytes ++ after)) before.length (lengthOf k) = bytes := by
    rw [progRead, List.drop_left, ← hlen, List.take_left]
  cases bytes with
  | nil => cases k <;> simp [lengthOf] at hlen
  | cons b rest =>
    have hb : b.toNat % 16 = opcodeOf k := by
      simp only [le] at hk
      omega
    rw [decode_of_le (byte := b) (by simp) hb (by simp [← hlen]), hread]

/-- A decoded instruction's own nibble (R73, R76). -/
theorem nibble_of_decode_ok {prog : List Byte} {pc : Nat} {i : Instr} (h : decode prog pc = .ok i) :
    ∃ byte, prog[pc]? = some byte ∧ byte.toNat % 16 = opcodeOf i.kind := by
  rcases decode_cases prog pc with ⟨_, e⟩ | ⟨byte, hb, ⟨_, e⟩ | ⟨k, hk, ⟨_, e⟩ | ⟨_, e⟩⟩⟩
  · exact nomatch h.symm.trans e
  · exact nomatch h.symm.trans e
  · exact nomatch h.symm.trans e
  · obtain rfl := Except.ok.inj (h.symm.trans e)
    rw [opcodeNibble_eq, kindOfOpcode_eq_some_iff] at hk
    exact ⟨byte, hb, by rwa [kind_fieldsOf]⟩

/-- Reserved bits stand above the opcode nibble (R66). -/
theorem sixteen_dvd_two_pow_reservedFrom (k : Kind) : 16 ∣ 2 ^ reservedFrom k := by
  cases k <;> decide

/-- A byte string of an instruction's length decodes to it exactly when it holds the wire word, the reserved bits apart. -/
theorem decode_eq_ok_iff {i : Instr} (h : i.wf) {bytes : List Byte} (hlen : bytes.length = i.length) :
    decode bytes 0 = .ok i ↔ le bytes % 2 ^ reservedFrom i.kind = wireWord i := by
  have hdec (hk : le bytes % 16 = opcodeOf i.kind) :
      decode bytes 0 = .ok i ↔ le bytes % 2 ^ reservedFrom i.kind = wireWord i := by
    rw [← fieldsOf_eq_iff h hk]
    have hd := decode_append hlen hk [] []
    rw [List.nil_append, List.append_nil, List.length_nil] at hd
    rw [hd, Except.ok.injEq]
  refine ⟨fun hd => (hdec ?_).mp hd, fun hw => (hdec ?_).mpr hw⟩
  · obtain ⟨byte, hb, hk⟩ := nibble_of_decode_ok hd
    cases bytes with
    | nil => simp at hb
    | cons b rest =>
      obtain rfl : b = byte := by simpa using hb
      simp only [le]
      omega
  · rw [← wireWord_mod_sixteen h, ← hw]
    exact (Nat.mod_mod_of_dvd _ (sixteen_dvd_two_pow_reservedFrom i.kind)).symm

end Sys2Proof
end

section
/-! ## The encoder: its answers and its wire form -/

namespace Sys2Proof
open Machine

@[simp] theorem wireForm_length (i : Instr) : (wireForm i).length = i.length := leBytes_length _ _

theorem encode_ok_iff (i : Instr) (bytes : List Byte) : encode i = .ok bytes ↔ i.wf ∧ bytes = wireForm i := by
  rw [← rangeError?_eq_none, encode]
  cases rangeError? i <;> simp [eq_comm]

theorem encode_of_wf {i : Instr} (h : i.wf) : encode i = .ok (wireForm i) := (encode_ok_iff i _).mpr ⟨h, rfl⟩

theorem encode_of_not_wf {i : Instr} (h : ¬ i.wf) : ∃ f, encode i = .error f := by
  cases he : encode i with
  | error f => exact ⟨f, rfl⟩
  | ok bytes => exact absurd ((encode_ok_iff i bytes).mp he).1 h

theorem encode_error_iff (i : Instr) (f : Field) : encode i = .error f ↔ rangeError? i = some f := by
  rw [encode]
  cases rangeError? i <;> simp

/-- The bits of a wire form are its fields and opcode, and the reserved bits above them (R66, R71). -/
theorem two_pow_reserved (k : Kind) : 2 ^ reservedFrom k * 2 ^ reservedCount k = 256 ^ lengthOf k := by
  cases k <;> rfl

/-- `le_bytes` inverts `le` (00_scope.md R8). -/
theorem leBytes_le : ∀ bytes : List Byte, leBytes (le bytes) bytes.length = bytes
  | [] => rfl
  | b :: rest => by
    have hdiv : (b.toNat + 256 * le rest) / 256 = le rest := by
      have := b.isLt
      omega
    have hmod : BitVec.ofNat 8 (b.toNat + 256 * le rest) = b := by
      apply BitVec.eq_of_toNat_eq
      have := b.isLt
      rw [BitVec.toNat_ofNat]
      omega
    rw [le, List.length_cons, leBytes, hdiv, hmod, leBytes_le rest]

theorem le_wireForm {i : Instr} (h : i.wf) : le (wireForm i) = wireWord i :=
  le_leBytes _ _ <| (wireWord_lt h).trans_le <| Nat.le_of_dvd (by positivity) ⟨_, (two_pow_reserved i.kind).symm⟩

/-- An encoded instruction decodes wherever its bytes stand (R74, R90). -/
theorem decode_wireForm {i : Instr} (h : i.wf) (before after : List Byte) :
    decode (before ++ (wireForm i ++ after)) before.length = .ok i := by
  have hk := wireWord_mod_sixteen h
  have hfields := (fieldsOf_eq_iff h hk).mpr (Nat.mod_eq_of_lt (wireWord_lt h))
  rw [← le_wireForm h] at hk hfields
  rw [decode_append (wireForm_length i) hk, hfields]

/-- Settles O2: the encoder accepts the well-formed instructions, and their wire forms decode. -/
theorem decodeOfEncodeIsTheInstruction : Obligations.DecodeOfEncodeIsTheInstruction := by
  intro i bytes henc
  obtain ⟨hw, rfl⟩ := (encode_ok_iff i bytes).mp henc
  refine ⟨by simpa using decode_wireForm hw [] [], ?_⟩
  rw [wireForm_length]
  cases i <;> rfl

end Sys2Proof
end

section
/-! ## The encoder's range checks, field by field (R68) -/

namespace Sys2Proof
open Machine

/-- The operand under a field letter fits the width of its field; a letter the kind does not have is no operand. -/
def operandFits (i : Instr) (f : Field) : Bool := (operandOf i f).all (fun v => v < 2 ^ widthOf i.kind f)

theorem operandFits_iff (i : Instr) (f : Field) :
    operandFits i f ↔ ∀ v, operandOf i f = some v → v < 2 ^ widthOf i.kind f := by
  simp [operandFits, Option.all_eq_true]

theorem operandFits_eq_false_iff (i : Instr) (f : Field) :
    operandFits i f = false ↔ ∃ v, operandOf i f = some v ∧ 2 ^ widthOf i.kind f ≤ v := by
  simp [operandFits, Option.all_eq_false]

/-- The table of fields and widths says what the encoder checks, in the order `B`, `C`, `D` (decision D17). -/
theorem rangeError?_eq (i : Instr) :
    rangeError? i =
      if operandFits i .b then
        if operandFits i .c then
          if operandFits i .d then none else some .d
        else some .c
      else some .b := by
  cases i <;> simp only [rangeError?, operandFits, operandOf, Option.all_some, Option.all_none, decide_eq_true_eq,
    ← Nat.not_lt, ite_not, if_true] <;> rfl

theorem forall_field {p : Field → Prop} : (∀ f, p f) ↔ p .b ∧ p .c ∧ p .d :=
  ⟨fun h => ⟨h _, h _, h _⟩, fun ⟨hb, hc, hd⟩ f => by cases f <;> assumption⟩

theorem wf_iff_operandFits (i : Instr) : i.wf ↔ ∀ f, operandFits i f := by
  rw [← rangeError?_eq_none, rangeError?_eq, forall_field]
  split_ifs with hb hc hd <;> simp [*]

theorem fitsBefore_iff (i : Instr) (f : Field) :
    FitsBefore i f ↔ ∀ g, fieldRank g < fieldRank f → operandFits i g := by
  simp only [operandFits_iff]
  exact ⟨fun h g hg v hv => h g v hg hv, fun h g v hg hv => h g hg v hv⟩

/-- The range check names the first operand that does not fit. -/
theorem rangeError?_eq_some_iff (i : Instr) (f : Field) :
    rangeError? i = some f ↔ operandFits i f = false ∧ FitsBefore i f := by
  rw [rangeError?_eq, fitsBefore_iff, forall_field]
  split_ifs with hb hc hd <;> cases f <;> simp [fieldRank, *]

/-- Settles O3: the range check answers none on the well-formed instructions, else the first bad field. -/
theorem encoderChecksEveryOperandRange : Obligations.EncoderChecksEveryOperandRange := by
  refine fun i => ⟨?_, fun f => ?_⟩
  · simp only [encode_ok_iff, exists_and_left, exists_eq, and_true, ← operandFits_iff]
    exact wf_iff_operandFits i
  · rw [encode_error_iff, rangeError?_eq_some_iff, operandFits_eq_false_iff]
    simp only [← and_assoc, exists_and_right]

end Sys2Proof
end

section
/-! ## Reserved bits, and what the decoder reads -/

namespace Sys2Proof
open Machine

/-- The words of an instruction's length: the part below the reserved bits, and the reserved bits. -/
theorem exists_reserved_iff {i : Instr} (h : i.wf) {bytes : List Byte} (hlen : bytes.length = i.length) :
    (∃ r, r < 2 ^ reservedCount i.kind ∧ bytes = leBytes (wireWord i + r * 2 ^ reservedFrom i.kind) i.length) ↔
      le bytes % 2 ^ reservedFrom i.kind = wireWord i := by
  have hword := wireWord_lt h
  have hpow : 256 ^ i.length = 2 ^ reservedFrom i.kind * 2 ^ reservedCount i.kind := (two_pow_reserved i.kind).symm
  constructor
  · rintro ⟨r, hr, hbytes⟩
    have hlt : wireWord i + r * 2 ^ reservedFrom i.kind < 256 ^ i.length := by
      rw [hpow]
      linarith [Nat.mul_le_mul_left (2 ^ reservedFrom i.kind) hr]
    rw [hbytes, le_leBytes _ _ hlt, Nat.add_mul_mod_self_right, Nat.mod_eq_of_lt hword]
  · intro hmod
    refine ⟨le bytes / 2 ^ reservedFrom i.kind, Nat.div_lt_of_lt_mul ?_, ?_⟩
    · rw [← hpow, ← hlen]
      exact le_lt bytes
    · rw [← hmod, Nat.mod_add_div', ← hlen, leBytes_le]

/-- Settles O8: both sides say that the word below the reserved bits is the wire word; re-encoding gives the wire form,
whose reserved bits are zero. -/
theorem decoderIgnoresReservedBits : Obligations.DecoderIgnoresReservedBits := by
  intro i bytes hw hlen
  rw [exists_reserved_iff hw hlen, decode_eq_ok_iff hw hlen]
  refine ⟨Iff.rfl, fun hmod => ?_⟩
  rw [encode_ok_iff, and_iff_right hw]
  constructor
  · rintro rfl
    rw [le_wireForm hw]
    exact wireWord_lt hw
  · intro hlt
    rw [wireForm, ← hmod, Nat.mod_eq_of_lt hlt, ← hlen, leBytes_le]

/-- Settles O11: the decoder's answer is the extracted fields of a kind whose nibble and bytes it has found. -/
theorem decodedInstructionIsWellFormed : Obligations.DecodedInstructionIsWellFormed := by
  intro prog pc i h
  obtain ⟨byte, hb, hk⟩ := nibble_of_decode_ok h
  refine ⟨wf_of_decode_ok h, (decode_ok h).1, byte, hb, hk, ?_⟩
  rw [hk]
  cases i <;> rfl

/-- Settles O10: the fields of each kind, or the bytes left. -/
theorem decoderExtractsTheFields : Obligations.DecoderExtractsTheFields := by
  intro prog pc byte hb
  refine ⟨fun hk => ⟨fun hl => ?_, decode_of_lt (k := .readMem) hb hk⟩, ?_, fun hl => ⟨fun hk => ?_, fun hk => ?_,
    fun hk => ?_⟩⟩
  · rw [decode_of_le (k := .readMem) hb hk hl, fieldsOf_readMem]
    rfl
  · rintro (hk | hk | hk)
    · exact decode_of_lt (k := .loadConst) hb hk
    · exact decode_of_lt (k := .shiftRight) hb hk
    · exact decode_of_lt (k := .writeMem) hb hk
  · exact decode_of_le (k := .loadConst) hb hk hl
  · exact decode_of_le (k := .shiftRight) hb hk hl
  · exact decode_of_le (k := .writeMem) hb hk hl

end Sys2Proof
end

section
/-! ## Illegal nibbles, in the decoder and in the engine -/

namespace Sys2Proof.Machine

/-- The twelve values that are no opcode (R77). -/
theorem kindOfOpcode_eq_none_of_mem {a : Nat} (h : a ∈ [1, 2, 3, 4, 5, 6, 7, 8, 9, 10, 12, 14]) :
    kindOfOpcode a = none := by
  revert a
  decide

theorem step_of_decode_error {s : State} {prog : List Byte} {e : DecodeError} (hr : s.status.runState = .running)
    (hp : s.prog = some prog) (hpc : s.pc < prog.length) (hd : decode prog s.pc = .error e) :
    step s = .next (takeFault (faultOfDecode e) s) := by
  simp [step, hr, hp, fetch, hd, Nat.not_le.mpr hpc]

theorem not_step_takeFault (f : Fault) (s u : State) : step (takeFault f s) ≠ .next u := by
  simp [step]

/-- Settles O9: no opcode has the nibble, so the decoder answers it and the engine takes the fault. -/
theorem illegalNibbleSpellsNoInstruction : Obligations.IllegalNibbleSpellsNoInstruction := by
  intro prog pc byte hb hnibble
  have hd : decode prog pc = .error (.unknownOpcode (byte.toNat % 16)) := by
    simp [decode, hb, opcodeNibble_eq, kindOfOpcode_eq_none_of_mem hnibble]
  refine ⟨hd, fun s hr hp hpc => ⟨takeFault (.unknownOpcode (byte.toNat % 16)) s, ?_, ?_, not_step_takeFault _ s⟩⟩
  · subst hpc
    exact step_of_decode_error hr hp (List.getElem?_eq_some_iff.mp hb).1 hd
  · exact (faultsWith_takeFault_iff _ _ _ _).mpr ⟨rfl, rfl⟩

end Sys2Proof.Machine
end

section
/-! ## Programs made by the encoder -/

namespace Sys2Proof

/-- Settles O12: the wire form of the instruction stands between those before and those after it. -/
theorem encodedProgramDecodesAtEachBoundary : Obligations.EncodedProgramDecodesAtEachBoundary := by
  intro before after i hw
  rw [List.flatMap_append, List.flatMap_cons]
  exact decode_wireForm hw _ _

end Sys2Proof
end

section
/-! ## Lines: what one line and a list of lines give -/

namespace Sys2Proof.Machine

theorem parseLine_of_skipped {line : List Char}
    (h : tokens line = [] ∨ ∃ name operands, tokens line = ('#' :: name) :: operands) : parseLine line = .ok none := by
  rcases h with h | ⟨name, operands, h⟩ <;> simp [parseLine, h, isComment]

theorem parseLine_of_instruction {line name : List Char} {operands : List (List Char)}
    (h : tokens line = name :: operands) (hc : isComment name = false) :
    parseLine line = (parseStatement name operands).map some := by
  simp only [parseLine, h, hc, Bool.false_eq_true, if_false]
  cases parseStatement name operands <;> rfl

/-- The log record of an instruction with its own wire form (R89). -/
def emitted (i : Instr) : LogRecord := logRecord i (wireForm i)

/-- A line succeeds when it is skipped or gives an instruction the encoder accepts (R82, R85). -/
theorem assembleLine_ok_iff (line : List Char) (r : Option LogRecord) :
    assembleLine line = .ok r ↔ ∃ p, parseLine line = .ok p ∧ (∀ i ∈ p, i.wf) ∧ p.map emitted = r := by
  rcases hp : parseLine line with e | _ | i
  · simp [assembleLine, hp]
  · simp [assembleLine, hp]
  · by_cases hw : i.wf
    · simp [assembleLine, hp, encode_of_wf hw, hw, emitted]
    · obtain ⟨f, hf⟩ := encode_of_not_wf hw
      simp [assembleLine, hp, hf, hw]

/-- The record of a line, if it has one. -/
def recordOf (line : List Char) : Option LogRecord := (assembleLine line).toOption.join

theorem recordOf_of_ok {line : List Char} {r : Option LogRecord} (h : assembleLine line = .ok r) : recordOf line = r := by
  simp [recordOf, h, Except.toOption]

theorem assembleLines_cons_none {line : List Char} (h : assembleLine line = .ok none) (n : Nat)
    (rest : List (List Char)) : assembleLines n (line :: rest) = assembleLines (n + 1) rest := by
  simp [assembleLines, h]

theorem assembleLines_cons_some {line : List Char} {r : LogRecord} (h : assembleLine line = .ok (some r)) (n : Nat)
    (rest : List (List Char)) : assembleLines n (line :: rest) = (assembleLines (n + 1) rest).map (r :: ·) := by
  simp only [assembleLines, h]
  cases assembleLines (n + 1) rest <;> rfl

theorem except_map_eq_ok_iff {ε α β : Type} (f : α → β) (x : Except ε α) (b : β) :
    x.map f = .ok b ↔ ∃ a, x = .ok a ∧ f a = b := by
  cases x <;> simp [Except.map]

/-- An assembly of lines succeeds when each of them does, and its log is their records in order; the line numbers stand
only in errors (R85, R88). -/
theorem assembleLines_ok_iff (n : Nat) (ls : List (List Char)) (log : List LogRecord) :
    assembleLines n ls = .ok log ↔ (∀ line ∈ ls, ∃ r, assembleLine line = .ok r) ∧ ls.filterMap recordOf = log := by
  induction ls generalizing n log with
  | nil => simp [assembleLines]
  | cons line rest ih =>
    rcases hl : assembleLine line with e | _ | r
    · simp [assembleLines, hl]
    · simp [assembleLines_cons_none hl, hl, recordOf_of_ok hl, ih]
    · simp [assembleLines_cons_some hl, hl, recordOf_of_ok hl, ih, except_map_eq_ok_iff, and_assoc]

/-- Settles O53: a skipped line succeeds without a record. -/
theorem blankAndCommentLinesAreSkipped : Obligations.BlankAndCommentLinesAreSkipped := by
  intro line h
  have hline : assembleLine line = .ok none := (assembleLine_ok_iff line none).mpr
    ⟨none, parseLine_of_skipped h, by simp, rfl⟩
  refine ⟨hline, fun n before after log => ?_⟩
  simp [assembleLines_ok_iff, hline, recordOf_of_ok hline, or_imp, forall_and]

end Sys2Proof.Machine
end

section
/-! ## Whole texts: the instructions, the binary and the log -/

namespace Sys2Proof.Machine

/-- The instruction of a line, if it has one. -/
def instructionOf (line : List Char) : Option Instr := (parseLine line).toOption.join

/-- A successful assembly: every line is skipped or gives an instruction the encoder accepts, and the log is the
emission of the instructions in order (R85, R88, R89). -/
theorem assemble_ok {text : List Char} {r : Assembly} (h : assemble text = .ok r) :
    (∀ line ∈ lines text, ∃ p, parseLine line = .ok p ∧ ∀ i ∈ p, i.wf) ∧
      r.log = ((lines text).filterMap instructionOf).map emitted ∧ r.binary = r.log.flatMap LogRecord.bytes := by
  rcases hlog : assembleLines 1 (lines text) with e | log
  · simp [assemble, hlog] at h
  · obtain rfl : _ = r := by simpa [assemble, hlog] using h
    obtain ⟨hlines, rfl⟩ := (assembleLines_ok_iff 1 _ log).mp hlog
    refine ⟨fun line hline => ?_, ?_, rfl⟩
    · obtain ⟨_, hr⟩ := hlines line hline
      obtain ⟨p, hp, hw, _⟩ := (assembleLine_ok_iff line _).mp hr
      exact ⟨p, hp, hw⟩
    · rw [List.map_filterMap]
      refine List.filterMap_congr fun line hline => ?_
      obtain ⟨_, hr⟩ := hlines line hline
      obtain ⟨p, hp, _, rfl⟩ := (assembleLine_ok_iff line _).mp hr
      rw [recordOf_of_ok hr, instructionOf, hp]
      rfl

theorem wf_of_mem_program {text : List Char} {r : Assembly} (h : assemble text = .ok r) {i : Instr}
    (hi : i ∈ (lines text).filterMap instructionOf) : i.wf := by
  obtain ⟨line, hline, hi⟩ := List.mem_filterMap.mp hi
  obtain ⟨p, hp, hw⟩ := (assemble_ok h).1 line hline
  exact hw i (by simpa [instructionOf, hp, Except.toOption] using hi)

@[simp] theorem emitted_bytes (i : Instr) : (emitted i).bytes = wireForm i := by cases i <;> rfl
@[simp] theorem emitted_a (i : Instr) : (emitted i).a = opcodeOf i.kind := by cases i <;> rfl
@[simp] theorem emitted_b (i : Instr) : some (emitted i).b = operandOf i .b := by cases i <;> rfl
@[simp] theorem emitted_c (i : Instr) : some (emitted i).c = operandOf i .c := by cases i <;> rfl
@[simp] theorem emitted_d (i : Instr) : (emitted i).d = operandOf i .d := by cases i <;> rfl

/-- The encoded lengths of R71, summed over a program. -/
theorem length_flatMap_wireForm (program : List Instr) :
    (program.flatMap wireForm).length = (program.map Instr.length).sum := by
  simp [List.length_flatMap]

theorem sum_length_eq (program : List Instr) :
    (program.map Instr.length).sum =
      2 * program.countP (fun i => i.kind = .readMem) + 4 * program.countP (fun i => i.kind ≠ .readMem) := by
  induction program with
  | nil => rfl
  | cons i rest ih =>
    rw [List.map_cons, List.sum_cons, ih, length_eq, List.countP_cons, List.countP_cons]
    by_cases hk : i.kind = .readMem <;> simp [hk] <;> omega

/-- Instruction number `k` of an encoded program decodes where the lengths before it end (R87). -/
theorem decode_program {program : List Instr} (hw : ∀ i ∈ program, i.wf) {k : Nat} {i : Instr}
    (hk : program[k]? = some i) :
    decode (program.flatMap wireForm) ((program.take k).map Instr.length).sum = .ok i := by
  obtain ⟨hlt, rfl⟩ := List.getElem?_eq_some_iff.mp hk
  have hsplit := encodedProgramDecodesAtEachBoundary (program.take k) (program.drop (k + 1)) program[k]
    (hw _ (List.getElem_mem hlt))
  rwa [List.getElem_cons_drop, List.take_append_drop, length_flatMap_wireForm] at hsplit

/-- The program of a text as the statements spell it. -/
theorem filterMap_parseLine_eq (text : List Char) :
    ((lines text).map parseLine).filterMap (fun p => p.toOption.join) = (lines text).filterMap instructionOf :=
  List.filterMap_map

/-- Settles O58: the log is the emission of the program, so its bytes are the program's wire forms. -/
theorem binaryIsTheConcatenationOfWireForms : Obligations.BinaryIsTheConcatenationOfWireForms := by
  intro text r program h hprogram
  rw [filterMap_parseLine_eq] at hprogram
  subst hprogram
  obtain ⟨hlines, hlog, hbinary⟩ := assemble_ok h
  have hwf := fun i (hi : i ∈ (lines text).filterMap instructionOf) => wf_of_mem_program h hi
  simp only [hlog, List.flatMap_map, emitted_bytes] at hbinary
  rw [hbinary]
  refine ⟨fun line hline => ?_, hwf, rfl, ?_, fun k i hk => decode_program hwf hk⟩
  · obtain ⟨p, hp, _⟩ := hlines line hline
    exact ⟨p, hp⟩
  · rw [length_flatMap_wireForm, sum_length_eq]

/-- Settles O59: the log is the emission of the program, record by record. -/
theorem emissionLogRecordsEachInstruction : Obligations.EmissionLogRecordsEachInstruction := by
  intro text r program h hprogram
  rw [filterMap_parseLine_eq] at hprogram
  subst hprogram
  obtain ⟨_, hlog, hbinary⟩ := assemble_ok h
  refine ⟨?_, ?_, ?_, ?_, ?_, hbinary⟩ <;> simp [hlog]

end Sys2Proof.Machine
end

section
/-! ## Statements and the checks on a line -/

namespace Sys2Proof.Machine

/-- A mnemonic names its own kind, and nothing else names it (R83, decision D15). -/
theorem kindOfMnemonic_eq_some_iff (name : List Char) (k : Kind) :
    kindOfMnemonic name = some k ↔ name = mnemonic k := by
  constructor
  · intro h
    have hk : (mnemonic k == name) = true := List.find?_some (p := fun k => mnemonic k == name) h
    exact (beq_iff_eq.mp hk).symm
  · rintro rfl
    cases k <;> rfl

theorem numbers_eq_none {operands : List (List Char)} (h : ∃ t ∈ operands, number t = none) :
    numbers operands = none := by
  induction operands with
  | nil => simp at h
  | cons token rest ih =>
    simp only [List.mem_cons, exists_eq_or_imp] at h
    rcases h with h | h
    · simp [numbers, h]
    · cases hn : number token <;> simp [numbers, hn, ih h]

theorem parseStatement_mnemonic {k : Kind} {operands : List (List Char)} {ns : List Nat} {i : Instr}
    (hl : operands.length = operandCount k) (hn : numbers operands = some ns)
    (hi : statement k ns = some i) :
    parseStatement (mnemonic k) operands = .ok i := by
  simp [parseStatement, (kindOfMnemonic_eq_some_iff _ k).mpr rfl, hn, hi, hl]

/-- Settles O54: each kind is named by its mnemonic alone, and its operands are taken in their order. -/
theorem statementsNameTheFourInstructions : Obligations.StatementsNameTheFourInstructions := by
  refine ⟨fun name => ⟨kindOfMnemonic_eq_some_iff _ _, kindOfMnemonic_eq_some_iff _ _, kindOfMnemonic_eq_some_iff _ _,
    kindOfMnemonic_eq_some_iff _ _⟩, fun tb tc td b c d hb hc hd => ?_⟩
  have h2 : numbers [tb, tc] = some [b, c] := by simp [numbers, hb, hc]
  have h3 : numbers [tb, tc, td] = some [b, c, d] := by simp [numbers, hb, hc, hd]
  exact ⟨parseStatement_mnemonic (k := .loadConst) rfl h2 rfl, parseStatement_mnemonic (k := .readMem) rfl h2 rfl,
    parseStatement_mnemonic (k := .writeMem) rfl h3 rfl, parseStatement_mnemonic (k := .shiftRight) rfl h3 rfl⟩

theorem assembleLine_of_parse_error {line name : List Char} {operands : List (List Char)} {e : AsmError}
    (h : tokens line = name :: operands) (hc : isComment name = false)
    (hp : parseStatement name operands = .error e) : assembleLine line = .error e := by
  simp [assembleLine, parseLine_of_instruction h hc, hp, Except.map]

theorem assembleLine_of_range_error {line name : List Char} {operands : List (List Char)} {i : Instr} {f : Field}
    (h : tokens line = name :: operands) (hc : isComment name = false)
    (hp : parseStatement name operands = .ok i) (he : encode i = .error f) :
    assembleLine line = .error (.rangeError f) := by
  simp [assembleLine, parseLine_of_instruction h hc, hp, Except.map, he]

/-- The first failing line decides the error, and its number is its place (R85, R162). -/
theorem assembleLines_of_error {line : List Char} {e : AsmError} (h : assembleLine line = .error e)
    (after : List (List Char)) :
    ∀ (n : Nat) (before : List (List Char)), (∀ l ∈ before, ∃ r, assembleLine l = .ok r) →
      assembleLines n (before ++ line :: after) = .error { line := n + before.length, error := e }
  | n, [], _ => by simp [assembleLines, h]
  | n, l :: before, hb => by
    rw [List.forall_mem_cons] at hb
    obtain ⟨⟨r, hl⟩, hb⟩ := hb
    have ih := assembleLines_of_error h after (n + 1) before hb
    rw [Nat.add_right_comm n 1] at ih
    cases r with
    | none => rw [List.cons_append, assembleLines_cons_none hl, ih]; rfl
    | some r => rw [List.cons_append, assembleLines_cons_some hl, ih]; rfl

/-- Settles O57: the branches of `parseStatement` in their order, then the range check; the lines before the first
failing one only add records. -/
theorem firstFailingCheckDecidesTheError : Obligations.FirstFailingCheckDecidesTheError := by
  refine ⟨fun line name operands h hc => ⟨fun hk => ?_, fun k hk hl => ?_, fun k hk hl hn => ?_, fun i f hp he => ?_⟩,
    fun text before after line e hlines hb he => ?_⟩
  · exact assembleLine_of_parse_error h hc (by simp [parseStatement, hk])
  · exact assembleLine_of_parse_error h hc (by simp [parseStatement, hk, hl])
  · exact assembleLine_of_parse_error h hc (by simp [parseStatement, hk, hl, numbers_eq_none hn])
  · exact assembleLine_of_range_error h hc hp he
  · exact ⟨_, by rw [assemble, hlines, assembleLines_of_error he after 1 before hb], rfl⟩

end Sys2Proof.Machine
end

section
/-! ## Numbers -/

namespace Sys2Proof.Machine

/-- The decimal digits and their values, the same in every base from ten up (R84). -/
theorem digitValue_of_digit {base : Nat} (hbase : 10 ≤ base) {ch : Char} (h0 : '0' ≤ ch) (h9 : ch ≤ '9') :
    digitValue base ch = some (ch.toNat - 48) := by
  have h0 : 48 ≤ ch.toNat := h0
  have h9 : ch.toNat ≤ 57 := h9
  have hlt : ch.toNat - 48 < base := by omega
  simp only [digitValue, h0, h9, and_self, if_true, hlt]

theorem digitValue_of_upper {ch : Char} (hA : 'A' ≤ ch) (hF : ch ≤ 'F') :
    digitValue 16 ch = some (ch.toNat - 55) := by
  have hA : 65 ≤ ch.toNat := hA
  have hF : ch.toNat ≤ 70 := hF
  have hdigit : ¬ ch.toNat ≤ 57 := by omega
  have hlt : ch.toNat - 55 < 16 := by omega
  simp only [digitValue, hdigit, hA, hF, and_false, and_self, if_false, if_true, hlt]

theorem digitValue_of_lower {ch : Char} (ha : 'a' ≤ ch) (hf : ch ≤ 'f') :
    digitValue 16 ch = some (ch.toNat - 87) := by
  have ha : 97 ≤ ch.toNat := ha
  have hf : ch.toNat ≤ 102 := hf
  have hdigit : ¬ ch.toNat ≤ 57 := by omega
  have hupper : ¬ ch.toNat ≤ 70 := by omega
  have hlt : ch.toNat - 87 < 16 := by omega
  simp only [digitValue, hdigit, hupper, ha, hf, and_false, and_self, if_false, if_true, hlt]

theorem digitValue_ten_isSome_iff (ch : Char) : (digitValue 10 ch).isSome ↔ '0' ≤ ch ∧ ch ≤ '9' := by
  change _ ↔ 48 ≤ ch.toNat ∧ ch.toNat ≤ 57
  simp only [digitValue]
  split_ifs <;> simp <;> omega

theorem digitValue_sixteen_isSome_iff (ch : Char) :
    (digitValue 16 ch).isSome ↔ ('0' ≤ ch ∧ ch ≤ '9') ∨ ('a' ≤ ch ∧ ch ≤ 'f') ∨ ('A' ≤ ch ∧ ch ≤ 'F') := by
  change _ ↔ (48 ≤ ch.toNat ∧ ch.toNat ≤ 57) ∨ (97 ≤ ch.toNat ∧ ch.toNat ≤ 102) ∨ (65 ≤ ch.toNat ∧ ch.toNat ≤ 70)
  simp only [digitValue]
  split_ifs <;> simp <;> omega

theorem digitsFrom_isSome_iff (base : Nat) : ∀ (acc : Nat) (ds : List Char),
    (digitsFrom base acc ds).isSome ↔ ∀ ch ∈ ds, (digitValue base ch).isSome
  | acc, [] => by simp [digitsFrom]
  | acc, ch :: rest => by
    cases hv : digitValue base ch with
    | none => simp [digitsFrom, hv]
    | some v => simp [digitsFrom, hv, digitsFrom_isSome_iff base _ rest]

theorem digits_of_ne_nil (base : Nat) {ds : List Char} (h : ds ≠ []) : digits base ds = digitsFrom base 0 ds := by
  cases ds with
  | nil => exact absurd rfl h
  | cons ch rest => rfl

theorem digits_isSome_iff (base : Nat) (ds : List Char) :
    (digits base ds).isSome ↔ ds ≠ [] ∧ ∀ ch ∈ ds, (digitValue base ch).isSome := by
  cases ds with
  | nil => simp [digits]
  | cons ch rest => simp [digits, digitsFrom_isSome_iff]

theorem digitsFrom_append (base : Nat) (ch : Char) {d : Nat} (hd : digitValue base ch = some d) :
    ∀ (ds : List Char) {acc v : Nat}, digitsFrom base acc ds = some v →
      digitsFrom base acc (ds ++ [ch]) = some (base * v + d)
  | [], acc, v, h => by
    obtain rfl : acc = v := by simpa [digitsFrom] using h
    simp [digitsFrom, hd, Nat.mul_comm]
  | c :: rest, acc, v, h => by
    cases hc : digitValue base c with
    | none => simp [digitsFrom, hc] at h
    | some w =>
      simp only [digitsFrom, hc, List.cons_append] at h ⊢
      exact digitsFrom_append base ch hd rest h

/-- One more digit at the end, after no digit or after a run of them (R84). -/
theorem digits_append {base : Nat} {ds : List Char} {v d : Nat} {ch : Char}
    (hv : ds = [] ∧ v = 0 ∨ digits base ds = some v) (hd : digitValue base ch = some d) :
    digits base (ds ++ [ch]) = some (base * v + d) := by
  rw [digits_of_ne_nil base (by simp)]
  refine digitsFrom_append base ch hd ds ?_
  rcases hv with ⟨rfl, rfl⟩ | hv
  · rfl
  · rwa [digits_of_ne_nil base (by rintro rfl; simp [digits] at hv)] at hv

theorem number_hex {x : Char} (hx : x = 'x' ∨ x = 'X') (ds : List Char) : number ('0' :: x :: ds) = digits 16 ds := by
  rcases hx with rfl | rfl <;> rfl

theorem number_of_not_hex {token : List Char} (h : ∀ x ds, token = '0' :: x :: ds → ¬ (x = 'x' ∨ x = 'X')) :
    number token = digits 10 token := by
  unfold number
  split
  case h_1 rest => exact absurd (.inl rfl) (h 'x' rest rfl)
  case h_2 rest => exact absurd (.inr rfl) (h 'X' rest rfl)
  case h_3 => rfl

/-- No `x` stands among decimal digits. -/
theorem number_of_decimal {token : List Char} (h : ∀ ch ∈ token, '0' ≤ ch ∧ ch ≤ '9') :
    number token = digits 10 token := by
  apply number_of_not_hex
  rintro x ds rfl hx
  obtain ⟨_, h9⟩ := h x (by simp)
  rcases hx with rfl | rfl <;> exact absurd h9 (by decide)

/-- Settles O55: a token that begins with `0x` or `0X` is read in base sixteen, and `x` is no decimal digit; every other
token is read in base ten. -/
theorem numericTokensAreDecimalOrHexadecimal : Obligations.NumericTokensAreDecimalOrHexadecimal := by
  intro token
  -- base sixteen first: its range contains that of base ten
  simp only [← digitValue_sixteen_isSome_iff]
  simp only [← digitValue_ten_isSome_iff]
  by_cases hhex : ∃ x ds, token = '0' :: x :: ds ∧ (x = 'x' ∨ x = 'X')
  · obtain ⟨x, ds, rfl, hx⟩ := hhex
    have hletter : digitValue 10 x = none := by rcases hx with rfl | rfl <;> rfl
    simp [number_hex hx, digits_isSome_iff, hletter, hx]
  · simp only [not_exists, not_and] at hhex
    rw [number_of_not_hex hhex, digits_isSome_iff]
    refine (or_iff_left ?_).symm
    rintro ⟨x, ds, htoken, hx, _⟩
    exact hhex x ds htoken hx

/-- Settles O56: `digits_append` in the base of the token, with the value of the new digit. -/
theorem numbersAreReadInTheirBase : Obligations.NumbersAreReadInTheirBase := by
  refine ⟨fun ds v ch hds hv h0 h9 => ?_, fun x ds v ch hx hv => ?_⟩
  · rw [number_of_decimal hds] at hv
    have hdigits : ∀ x ∈ ds ++ [ch], '0' ≤ x ∧ x ≤ '9' := by
      simpa only [List.forall_mem_append, List.forall_mem_singleton] using ⟨hds, h0, h9⟩
    rw [number_of_decimal hdigits]
    exact digits_append hv (digitValue_of_digit le_rfl h0 h9)
  · rw [number_hex hx] at hv ⊢
    exact ⟨fun h0 h9 => digits_append hv (digitValue_of_digit (by decide) h0 h9),
      fun hA hF => digits_append hv (digitValue_of_upper hA hF),
      fun ha hf => digits_append hv (digitValue_of_lower ha hf)⟩

end Sys2Proof.Machine
end

/-! # The family 40_fetch_execute.md: the step of the engine, its frame and its path through the program -/

section
/-! ## When the engine steps -/

namespace Sys2Proof.Machine

/-- Settles O16: the end test comes first, and `halt` sets the run state only. -/
theorem endOfProgramHalts : Obligations.EndOfProgramHalts :=
  fun s _ hr hp hl => ⟨halt s, step_of_length_le hr hp hl, rfl, rfl, rfl, rfl, rfl⟩

theorem step_of_not_running {s : State} (h : s.status.runState ≠ .running) :
    step s = .refused (.noStep s.status.runState) := by
  cases hr : s.status.runState with
  | idle => simp [step, hr]
  | running => exact absurd hr h
  | halted => simp [step, hr]
  | faulted => simp [step, hr]

theorem lt_of_decode_ok {prog : List Byte} {pc : Nat} {i : Instr} (h : decode prog pc = .ok i) : pc < prog.length :=
  (Nat.lt_add_of_pos_right (length_pos i)).trans_le (decode_ok h).1

theorem step_of_decode_ok {s : State} {prog : List Byte} {i : Instr} (hr : s.status.runState = .running)
    (hp : s.prog = some prog) (hd : decode prog s.pc = .ok i) : step s = exec i s := by
  simp [step, hr, hp, fetch, hd, Nat.not_le.mpr (lt_of_decode_ok hd)]

theorem exists_exec (i : Instr) (s : State) : ∃ t, exec i s = .next t := by
  rcases exec_cases i s with ⟨_, _, e⟩ | ⟨_, _, e⟩
  · exact ⟨_, e⟩
  · exact ⟨_, e⟩

/-- RUNNING with a program, the engine always answers a next state: the end, a fault of fetch, or an instruction. -/
theorem exists_step {s : State} {prog : List Byte} (hr : s.status.runState = .running) (hp : s.prog = some prog) :
    ∃ t, step s = .next t := by
  rcases fetch_cases prog s.pc with ⟨hl, _⟩ | ⟨hl, e, hd, _⟩ | ⟨_, i, hd, _⟩
  · exact ⟨_, step_of_length_le hr hp hl⟩
  · exact ⟨_, step_of_decode_error hr hp hl hd⟩
  · rw [step_of_decode_ok hr hp hd]
    exact exists_exec i s

/-- Settles O15: the end and a fault of fetch keep every cell, an instruction every cell but its destination. -/
theorem engineStepsExactlyWhileRunning : Obligations.EngineStepsExactlyWhileRunning := by
  refine fun s => ⟨step_of_not_running, fun hr hsome => ?_⟩
  obtain ⟨prog, hp⟩ := Option.isSome_iff_exists.mp hsome
  obtain ⟨t, ht⟩ := exists_step hr hp
  refine ⟨t, ht, fun prog hp => ?_⟩
  obtain ⟨_, prog', hp', hc⟩ := step_cases ht
  obtain rfl : prog' = prog := Option.some.inj (hp'.symm.trans hp)
  rcases hc with ⟨_, rfl⟩ | ⟨_, _, _, rfl⟩ | ⟨_, i, hd, hx⟩
  · exact ⟨fun _ _ _ _ => rfl, fun _ _ => rfl⟩
  · exact ⟨fun _ _ _ _ => rfl, fun _ _ => rfl⟩
  · refine ⟨fun i' hd' a ha => ?_, fun hnone => absurd hd (hnone i)⟩
    obtain rfl : i = i' := Except.ok.inj (hd.symm.trans hd')
    exact exec_cell_of_ne hx ha

end Sys2Proof.Machine
end

section
/-! ## What an instruction leaves -/

namespace Sys2Proof.Machine

/-- Settles O26: a completed instruction is `written`, a faulting one `takeFault`. -/
theorem instructionsChangeOnlyTheirDestination : Obligations.InstructionsChangeOnlyTheirDestination := by
  intro i s t h
  refine ⟨fun a ha => exec_cell_of_ne h ha, ?_⟩
  rcases exec_cases i s with ⟨_, _, e⟩ | ⟨f, _, e⟩
  · obtain rfl := Host.Outcome.next.inj (h.symm.trans e)
    exact ⟨rfl, rfl, .inl ⟨rfl, rfl⟩⟩
  · obtain rfl := Host.Outcome.next.inj (h.symm.trans e)
    exact ⟨rfl, rfl, .inr ⟨rfl, rfl, rfl⟩⟩

/-- An instruction that does not fault moves `pc` past its own bytes and leaves the status (R104). -/
theorem exec_of_not_faulted {i : Instr} {s t : State} (h : exec i s = .next t) (hf : t.status.runState ≠ .faulted) :
    t.status = s.status ∧ t.pc = s.pc + i.length := by
  obtain ⟨_, _, _, hdone | ⟨hfault, _⟩⟩ := instructionsChangeOnlyTheirDestination i s t h
  · exact hdone
  · exact absurd hfault hf

/-- Settles O14: the end test and the decode lead to `exec`, which advances past the instruction. -/
theorem stepExecutesTheDecodedInstruction : Obligations.StepExecutesTheDecodedInstruction :=
  fun _ _ _ hr hp hd => ⟨step_of_decode_ok hr hp hd, fun _ h hf => (exec_of_not_faulted h hf).2⟩

end Sys2Proof.Machine
end

section
/-! ## The path through the program -/

namespace Sys2Proof.Machine

/-- The `pc` and the run state after a step that raises no fault of an effect: what fetch finds decides (R106). -/
def pathFrom (prog : List Byte) (pc : Nat) : Nat × RunState :=
  match fetch prog pc with
  | .endOfProgram => (pc, .halted)
  | .bad _ => (pc, .faulted)
  | .instruction i => (pc + i.length, .running)

theorem pathFrom_of_length_le {prog : List Byte} {pc : Nat} (h : prog.length ≤ pc) :
    pathFrom prog pc = (pc, .halted) := by
  simp [pathFrom, fetch, h]

theorem pathFrom_of_decode_ok {prog : List Byte} {pc : Nat} {i : Instr} (h : decode prog pc = .ok i) :
    pathFrom prog pc = (pc + i.length, .running) := by
  simp [pathFrom, fetch, h, Nat.not_le.mpr (lt_of_decode_ok h)]

/-- A step that does not fault goes where the program and `pc` say, whatever the memory holds (R106). -/
theorem step_path {s t : State} {prog : List Byte} (hp : s.prog = some prog) (h : step s = .next t)
    (hf : t.status.runState ≠ .faulted) : (t.pc, t.status.runState) = pathFrom prog s.pc := by
  obtain ⟨hr, prog', hp', hc⟩ := step_cases h
  obtain rfl : prog' = prog := Option.some.inj (hp'.symm.trans hp)
  rcases hc with ⟨hend, rfl⟩ | ⟨_, _, _, rfl⟩ | ⟨_, i, hd, hx⟩
  · exact (pathFrom_of_length_le hend).symm
  · exact absurd rfl hf
  · obtain ⟨hstatus, hpc⟩ := exec_of_not_faulted hx hf
    rw [pathFrom_of_decode_ok hd, hpc, hstatus, hr]

/-- Settles O20: both engines take the one path their program and `pc` give. -/
theorem controlFlowIgnoresData : Obligations.ControlFlowIgnoresData := by
  intro s s' t t' hprog hpc h h' hf hf'
  obtain ⟨_, prog, hp, _⟩ := step_cases h
  have hpath : (t.pc, t.status.runState) = (t'.pc, t'.status.runState) := by
    rw [step_path hp h hf, step_path (hprog.symm.trans hp) h' hf', hpc]
  exact Prod.mk.inj hpath

end Sys2Proof.Machine
end

section
/-! ## The program counter in the reachable states -/

namespace Sys2Proof.Machine

/-- Settles O52: the parts of the invariant that speak of `pc`. -/
theorem pcStaysEvenAndInsideTheProgram : Obligations.PcStaysEvenAndInsideTheProgram := by
  intro s h
  obtain ⟨_, _, _, hpc, _, hprog⟩ := (inv_iff s).mp (reachableStatesMeetTheInvariant s h)
  obtain ⟨heven, hle⟩ := (pcOk_iff s).mp hpc
  obtain ⟨hlen, _, _, hend⟩ := (programOk_iff s).mp hprog
  exact ⟨heven, hle, hle.trans_lt hlen, hend⟩

end Sys2Proof.Machine
end

section
/-! ## A run of a program made by the encoder -/

namespace Sys2Proof.Machine

/-- The first byte of a wire form has the nibble of the instruction's kind, one of the four legal ones (R76, R91). -/
theorem nibble_head_wireForm {i : Instr} (h : i.wf) {first : Byte} (hf : first ∈ (wireForm i).head?) :
    first.toNat % 16 ∈ [0, 11, 13, 15] := by
  have hd : decode (wireForm i) 0 = .ok i := by simpa using decode_wireForm h [] []
  obtain ⟨byte, hb, hk⟩ := nibble_of_decode_ok hd
  rw [← List.head?_eq_getElem?] at hb
  obtain rfl : byte = first := Option.some.inj (hb.symm.trans hf)
  rw [hk]
  cases i.kind <;> decide

/-- RUNNING at the boundary before instruction number `k` of an encoded program, or at its end when there are `k`. -/
structure AtBoundary (program : List Instr) (k : Nat) (s : State) : Prop where
  running : s.status.runState = .running
  noFault : s.status.cause = .noFault
  prog : s.prog = some (program.flatMap wireForm)
  pc : s.pc = ((program.take k).map Instr.length).sum
  le_length : k ≤ program.length

/-- The ends of a run of an encoded program: HALTED at the binary's length, or a fault of an instruction's effect. -/
def EndedOutsideFetch (program : List Instr) (s : State) : Prop :=
  (s.status.runState = .halted ∧ s.status.cause = .noFault ∧ s.pc = (program.flatMap wireForm).length) ∨
    (s.status.runState = .faulted ∧ (s.status.cause = .outOfBounds ∨ s.status.cause = .shiftAmount))

theorem cause_of_effectFault {s : State} {f : Fault} (h : EffectFault s f) :
    f.cause = .outOfBounds ∨ f.cause = .shiftAmount := by
  rcases h with ⟨_, _, rfl⟩ | ⟨_, _, rfl⟩
  · exact .inl rfl
  · exact .inr rfl

theorem EndedOutsideFetch.not_running {program : List Instr} {s : State} (h : EndedOutsideFetch program s) :
    s.status.runState ≠ .running := by
  rcases h with ⟨hr, _⟩ | ⟨hr, _⟩ <;> simp [hr]

theorem EndedOutsideFetch.cause {program : List Instr} {s : State} (h : EndedOutsideFetch program s) :
    s.status.cause ≠ .unknownOpcode ∧ s.status.cause ≠ .truncatedInstruction := by
  rcases h with ⟨_, hc, _⟩ | ⟨_, hc | hc⟩ <;> simp [hc]

theorem sum_length_take_succ {program : List Instr} {k : Nat} {i : Instr} (h : program[k]? = some i) :
    ((program.take (k + 1)).map Instr.length).sum = ((program.take k).map Instr.length).sum + i.length := by
  simp [List.take_add_one, h]

/-- From one boundary a step leads to the next one or ends the run outside fetch. -/
theorem step_of_atBoundary {program : List Instr} (hw : ∀ i ∈ program, i.wf) {k : Nat} {s : State}
    (h : AtBoundary program k s) :
    ∃ t, step s = .next t ∧ (AtBoundary program (k + 1) t ∨ EndedOutsideFetch program t) := by
  cases hk : program[k]? with
  | none =>
    have hpc : s.pc = (program.flatMap wireForm).length := by
      rw [h.pc, List.take_of_length_le (List.getElem?_eq_none_iff.mp hk), length_flatMap_wireForm]
    exact ⟨_, step_of_length_le h.running h.prog hpc.ge, .inr (.inl ⟨rfl, h.noFault, hpc⟩)⟩
  | some i =>
    rw [step_of_decode_ok h.running h.prog (by rw [h.pc]; exact decode_program hw hk)]
    rcases exec_cases i s with ⟨_, _, e⟩ | ⟨f, hf, e⟩
    · refine ⟨_, e, .inl ⟨h.running, h.noFault, h.prog, ?_, (List.getElem?_eq_some_iff.mp hk).1⟩⟩
      rw [written_pc, h.pc, sum_length_take_succ hk]
    · exact ⟨_, e, .inr (.inr ⟨rfl, cause_of_effectFault hf⟩)⟩

theorem run_of_not_running {s : State} (h : s.status.runState ≠ .running) : ∀ k, run k s = s
  | 0 => rfl
  | k + 1 => by simp [run, step_of_not_running h]

theorem run_succ_of_step {s t : State} (h : step s = .next t) (k : Nat) : run (k + 1) s = run k t := by
  simp [run, h]

/-- `k` steps from a boundary lead `k` instructions further, unless the run has ended outside fetch (R91). -/
theorem run_of_atBoundary {program : List Instr} (hw : ∀ i ∈ program, i.wf) (k : Nat) :
    ∀ {j : Nat} {s : State}, AtBoundary program j s →
      AtBoundary program (j + k) (run k s) ∨ EndedOutsideFetch program (run k s) := by
  induction k with
  | zero => exact .inl
  | succ k ih =>
    intro j s h
    obtain ⟨t, ht, hnext | hended⟩ := step_of_atBoundary hw h
    · rw [run_succ_of_step ht, Nat.add_comm k 1, ← Nat.add_assoc]
      exact ih hnext
    · rw [run_succ_of_step ht, run_of_not_running hended.not_running]
      exact .inr hended

theorem atBoundary_of_boot {program : List Instr} {s s0 : State} (h : boot (program.flatMap wireForm) s = .ok s0) :
    AtBoundary program 0 s0 := by
  obtain rfl := boot_ok h
  exact ⟨rfl, rfl, rfl, rfl, Nat.zero_le _⟩

/-- Settles O13: a run goes from boundary to boundary; past the last one there is none, so by then it has ended. -/
theorem encodedProgramNeverFaultsInFetch : Obligations.EncodedProgramNeverFaultsInFetch := by
  intro program s s0 hw hboot
  have hrun (k : Nat) : AtBoundary program k (run k s0) ∨ EndedOutsideFetch program (run k s0) := by
    simpa using run_of_atBoundary hw k (atBoundary_of_boot hboot)
  refine ⟨fun i hi first hf => nibble_head_wireForm (hw i hi) hf, fun k => ?_, ?_⟩
  · rcases hrun k with h | h
    · exact ⟨by simp [h.noFault], by simp [h.noFault], fun _ => h.pc, by simp [h.running]⟩
    · refine ⟨h.cause.1, h.cause.2, fun hr => absurd hr h.not_running, fun hr => ?_⟩
      rcases h with ⟨_, _, hpc⟩ | ⟨hfault, _⟩
      · exact hpc
      · exact nomatch hr.symm.trans hfault
  · rcases hrun (program.length + 1) with h | ⟨hr, _⟩ | hfault
    · exact absurd h.le_length (Nat.not_succ_le_self _)
    · exact .inl hr
    · exact .inr hfault

end Sys2Proof.Machine
end

/-! # The family 41_data_movement.md: LOAD_CONST, READ_MEM and WRITE_MEM -/

section
/-! ## How an instruction ends, by its operand cells -/

namespace Sys2Proof.Machine

/-- From a canonical memory, `written` is what a statement asks of a completed instruction. -/
theorem writesCell_written {s : State} (hwf : Memory.wf s.mem) (dst v n : Nat) :
    WritesCell s dst v n (written dst v n s) :=
  ⟨written_cell_same dst v n s hwf, fun _ ha => written_cell_of_ne dst v n s ha, rfl, rfl, rfl, rfl⟩

theorem faultsWith_takeFault (s : State) (f : Fault) : FaultsWith s f.cause f.info (takeFault f s) :=
  (faultsWith_takeFault_iff s f _ _).mpr ⟨rfl, rfl⟩

/-- With its sources and its destination in bounds an instruction completes. -/
theorem exec_completes (i : Instr) {s : State} (hwf : Memory.wf s.mem) (hsrc : sourcesInBounds i s)
    (hdst : destination i s < s.config.memSize) :
    ∃ t, exec i s = .next t ∧ WritesCell s (destination i s) (resultOf i s) i.length t := by
  have hexec := exec_of_sourcesInBounds hsrc
  rw [memWrite_of_lt _ hdst] at hexec
  exact ⟨_, hexec, writesCell_written hwf _ _ _⟩

/-- With its sources in bounds an instruction whose destination is not faults on the destination. -/
theorem exec_faults_at_destination (i : Instr) {s : State} (hsrc : sourcesInBounds i s)
    (hdst : s.config.memSize ≤ destination i s) :
    ∃ t, exec i s = .next t ∧ FaultsWith s .outOfBounds (destination i s) t := by
  have hexec := exec_of_sourcesInBounds hsrc
  rw [memWrite_of_le _ hdst] at hexec
  exact ⟨_, hexec, faultsWith_takeFault s (.outOfBounds _)⟩

/-- An effect whose first act is a read out of bounds faults on the address read, whatever it would do next. -/
theorem settle_memRead_faults {a : Nat} {s : State} (h : s.config.memSize ≤ a) (rest : Nat → Except Fault State) :
    ∃ t, settle s (memRead a s >>= rest) = .next t ∧ FaultsWith s .outOfBounds a t := by
  rw [memRead_of_le h]
  exact ⟨_, rfl, faultsWith_takeFault s (.outOfBounds a)⟩

end Sys2Proof.Machine
end

section
/-! ## The three instructions that move data -/

namespace Sys2Proof.Machine

/-- Settles O22: LOAD_CONST reads no cell, so its destination alone decides. -/
theorem loadConstStoresItsConstant : Obligations.LoadConstStoresItsConstant :=
  fun b c _ hwf => ⟨exec_completes (.loadConst b c) hwf trivial, exec_faults_at_destination (.loadConst b c) trivial⟩

/-- Settles O23: the read of cell `B` comes first, and with it in bounds the destination decides. -/
theorem readMemCopiesACell : Obligations.ReadMemCopiesACell :=
  fun b c _ hwf => ⟨exec_completes (.readMem b c) hwf, fun hb => settle_memRead_faults hb _,
    exec_faults_at_destination (.readMem b c)⟩

/-- The address fields of WRITE_MEM reach no further than `63 + 4095` (R123). -/
theorem baseOffset_le_of_wf {b c d : Nat} (hw : (Instr.writeMem b c d).wf) : baseOffset b d ≤ 4158 := by
  obtain ⟨hb, _, hd⟩ := (wf_writeMem_iff b c d).mp hw
  simp only [baseOffset]
  omega

/-- Settles O24: the address is a sum of natural numbers; the read of cell `C` comes first, and with it in bounds the
address decides. -/
theorem writeMemStoresAtBasePlusOffset : Obligations.WriteMemStoresAtBasePlusOffset :=
  fun b c d _ hwf => ⟨rfl, baseOffset_le_of_wf, exec_completes (.writeMem b c d) hwf,
    fun hc => settle_memRead_faults hc _, exec_faults_at_destination (.writeMem b c d)⟩

end Sys2Proof.Machine
end

/-! # The family 42_rotate.md: SHIFT_RIGHT -/

section
/-! ## The three operand reads of SHIFT_RIGHT -/

namespace Sys2Proof.Machine

/-- Past a read in bounds an effect goes on with the cell's content: what `rest` then leaves is what the whole leaves. -/
theorem settle_memRead_continues {a : Nat} {s : State} {P : State → Prop} (h : a < s.config.memSize)
    (rest : Nat → Except Fault State) (hrest : ∃ t, settle s (rest (s.cell a)) = .next t ∧ P t) :
    ∃ t, settle s (memRead a s >>= rest) = .next t ∧ P t := by
  rw [memRead_of_lt h]
  exact hrest

/-- With its operand cells in bounds an amount above 16 faults, wherever the result would have gone (R146). -/
theorem exec_shiftRight_faults_on_amount {b c d : Nat} {s : State} (hb : b < s.config.memSize)
    (hc : c < s.config.memSize) (hd : d < s.config.memSize) (hamount : 16 < s.cell d) :
    ∃ t, exec (.shiftRight b c d) s = .next t ∧ FaultsWith s .shiftAmount (s.cell d) t :=
  ⟨_, exec_shiftRight_of_amount hb hc hd hamount, faultsWith_takeFault s (.shiftAmount (s.cell d))⟩

/-- Settles O25: the reads of the cells `B`, `C` and `D` come first and in that order; past them the amount decides, and
a legal amount leaves the decision to the destination `MEM[C]`. -/
theorem shiftRightStoresTheRotation : Obligations.ShiftRightStoresTheRotation := by
  intro b c d s hwf
  refine ⟨fun hb hc hd => ⟨memRead_of_lt hc, fun hamount hdst => ?completes, exec_shiftRight_faults_on_amount hb hc hd,
    fun hamount hdst => ?destination⟩, fun hb => ?readB, fun hb hc => ?readC, fun hb hc hd => ?readD⟩
  case completes => exact exec_completes (.shiftRight b c d) hwf ⟨hb, hc, hd, hamount⟩ hdst
  case destination => exact exec_faults_at_destination (.shiftRight b c d) ⟨hb, hc, hd, hamount⟩ hdst
  case readB => exact settle_memRead_faults hb _
  case readC => exact settle_memRead_continues hb _ (settle_memRead_faults hc _)
  case readD => exact settle_memRead_continues hb _ (settle_memRead_continues hc _ (settle_memRead_faults hd _))

end Sys2Proof.Machine
end

/-! # The family 60_exceptions.md: fault entry, the table of faults and the terminal states -/

section
/-! ## The ways into FAULTED -/

namespace Sys2Proof.Machine

/-- Settles O38: of the three ends of a step only a taken fault is FAULTED; the end of the program is HALTED, and a
completed instruction leaves the engine RUNNING. -/
theorem faultEntryChangesOnlyTheStatus : Obligations.FaultEntryChangesOnlyTheStatus := by
  refine ⟨fun f s => ⟨faultsWith_takeFault s f, not_step_takeFault f s⟩, fun s t h hf => ?_⟩
  obtain ⟨hr, _, _, ⟨_, rfl⟩ | ⟨f, _, rfl⟩ | ⟨_, _, _, _, rfl⟩⟩ := step_outcomes h
  · exact nomatch hf
  · exact ⟨f, faultsWith_takeFault s f⟩
  · exact nomatch hr.symm.trans hf

end Sys2Proof.Machine
end

section
/-! ## The two faults of fetch -/

namespace Sys2Proof.Machine

/-- A legal nibble whose instruction passes the end of the program faults with the bytes left (R165). -/
theorem step_of_truncated {s : State} {prog : List Byte} {byte : Byte} {k : Kind}
    (hr : s.status.runState = .running) (hp : s.prog = some prog) (hb : prog[s.pc]? = some byte)
    (hk : byte.toNat % 16 = opcodeOf k) (hl : prog.length < s.pc + lengthOf k) :
    step s = .next (takeFault (.truncatedInstruction (prog.length - s.pc)) s) :=
  step_of_decode_error hr hp (List.getElem?_eq_some_iff.mp hb).1 (decode_of_lt hb hk hl)

/-- The nibbles of the three kinds of 4 bytes (R71, R76). -/
theorem exists_kind_of_long_nibble {a : Nat} (h : a ∈ [11, 13, 15]) : ∃ k, a = opcodeOf k ∧ lengthOf k = 4 := by
  simp only [List.mem_cons, List.not_mem_nil, or_false] at h
  rcases h with rfl | rfl | rfl
  · exact ⟨.loadConst, rfl, rfl⟩
  · exact ⟨.shiftRight, rfl, rfl⟩
  · exact ⟨.writeMem, rfl, rfl⟩

/-- Settles O40: the nibble at `pc` alone decides for UnknownOpcode; a legal one gives its kind's length, which the
bytes left fall short of. -/
theorem fetchFaultsBeforeAnyEffect : Obligations.FetchFaultsBeforeAnyEffect := by
  intro s prog byte hr hp hb
  have hpc : s.pc < prog.length := (List.getElem?_eq_some_iff.mp hb).1
  refine ⟨fun hnibble => ?unknown, fun hnibble hl => ?short, fun hnibble hl => ?long⟩
  case unknown =>
    obtain ⟨_, hengine⟩ := illegalNibbleSpellsNoInstruction prog s.pc byte hb hnibble
    obtain ⟨t, ht, hfault, _⟩ := hengine s hr hp rfl
    exact ⟨t, ht, hfault⟩
  case short =>
    have hstep := step_of_truncated (k := .readMem) hr hp hb hnibble hl
    rw [show prog.length - s.pc = 1 by omega] at hstep
    exact ⟨_, hstep, faultsWith_takeFault s (.truncatedInstruction 1)⟩
  case long =>
    obtain ⟨k, hk, hlen⟩ := exists_kind_of_long_nibble hnibble
    have hstep := step_of_truncated hr hp hb hk (hlen ▸ hl)
    exact ⟨_, prog.length - s.pc, hstep, faultsWith_takeFault s (.truncatedInstruction _), by omega, by omega,
      by omega⟩

end Sys2Proof.Machine
end

section
/-! ## The rows of the table of R163 -/

namespace Sys2Proof.Machine

/-- The other direction of `kindOfOpcode_eq_none_of_mem`, for a nibble (R77). -/
theorem mem_of_kindOfOpcode_eq_none {a : Nat} (ha : a < 16) (h : kindOfOpcode a = none) :
    a ∈ [1, 2, 3, 4, 5, 6, 7, 8, 9, 10, 12, 14] := by
  revert a
  decide

theorem opcodeOf_mem (k : Kind) : opcodeOf k ∈ [0, 11, 13, 15] := by cases k <;> decide

/-- The encoded length by the nibble: READ_MEM alone has 2 bytes (R71). -/
theorem lengthOf_eq (k : Kind) : lengthOf k = if opcodeOf k = 0 then 2 else 4 := by cases k <;> rfl

/-- A failed decode inside the program: an illegal nibble, or a legal one cut short, in the words of the table. -/
theorem decode_error_cases {prog : List Byte} {pc : Nat} {e : DecodeError} (hpc : pc < prog.length)
    (h : decode prog pc = .error e) :
    ∃ byte, prog[pc]? = some byte ∧
      ((byte.toNat % 16 ∈ [1, 2, 3, 4, 5, 6, 7, 8, 9, 10, 12, 14] ∧ e = .unknownOpcode (byte.toNat % 16)) ∨
        (byte.toNat % 16 ∈ [0, 11, 13, 15] ∧ prog.length < pc + (if byte.toNat % 16 = 0 then 2 else 4) ∧
          e = .truncatedInstruction (prog.length - pc))) := by
  rcases decode_cases prog pc with ⟨hn, _⟩ | ⟨byte, hb, ⟨hk, he⟩ | ⟨k, hk, ⟨hl, he⟩ | ⟨_, he⟩⟩⟩
  · exact absurd hpc (Nat.not_lt.mpr hn)
  · have hnibble := mem_of_kindOfOpcode_eq_none (opcodeNibble_lt byte) hk
    rw [opcodeNibble_eq] at he hnibble
    exact ⟨byte, hb, .inl ⟨hnibble, Except.error.inj (h.symm.trans he)⟩⟩
  · rw [opcodeNibble_eq, kindOfOpcode_eq_some_iff] at hk
    rw [lengthOf_eq, ← hk] at hl
    exact ⟨byte, hb, .inr ⟨hk ▸ opcodeOf_mem k, hl, Except.error.inj (h.symm.trans he)⟩⟩
  · exact nomatch h.symm.trans he

/-- The faults a well-formed instruction can end in, by what went wrong: a direct operand cell out of bounds, a computed
destination out of bounds, or an amount above 16 (R163, R166, R167). -/
inductive InstrFault (i : Instr) (s : State) : Fault → Prop where
  | operand {a : Nat} (hfield : a < 64) (h : s.config.memSize ≤ a) : InstrFault i s (.outOfBounds a)
  | store (hkind : i.kind = .writeMem ∨ i.kind = .shiftRight) (h : s.config.memSize ≤ destination i s) :
    InstrFault i s (.outOfBounds (destination i s))
  | amount {b c d : Nat} (hi : i = .shiftRight b c d) (h : 16 < s.cell d) : InstrFault i s (.shiftAmount (s.cell d))

/-- `exec_cases` with the fault traced to its operand. -/
theorem exec_instrFault_cases {i : Instr} (hw : i.wf) (s : State) :
    exec i s = .next (written (destination i s) (resultOf i s) i.length s) ∨
      ∃ f, InstrFault i s f ∧ exec i s = .next (takeFault f s) := by
  cases i with
  | readMem b c =>
    obtain ⟨hb, hc⟩ := (wf_readMem_iff b c).mp hw
    rcases execReadMem_cases b c s with ⟨_, _, e⟩ | ⟨h, e⟩ | ⟨_, h, e⟩
    · exact .inl e
    · exact .inr ⟨_, .operand hb h, e⟩
    · exact .inr ⟨_, .operand hc h, e⟩
  | loadConst b c =>
    obtain ⟨_, hc⟩ := (wf_loadConst_iff b c).mp hw
    rcases execLoadConst_cases b c s with ⟨_, e⟩ | ⟨h, e⟩
    · exact .inl e
    · exact .inr ⟨_, .operand hc h, e⟩
  | shiftRight b c d =>
    obtain ⟨hb, hc, hd⟩ := (wf_shiftRight_iff b c d).mp hw
    rcases execShiftRight_cases b c d s with
      ⟨_, _, _, _, _, e⟩ | ⟨h, e⟩ | ⟨_, h, e⟩ | ⟨_, _, h, e⟩ | ⟨_, _, _, h, e⟩ | ⟨_, _, _, _, h, e⟩
    · exact .inl e
    · exact .inr ⟨_, .operand hb h, e⟩
    · exact .inr ⟨_, .operand hc h, e⟩
    · exact .inr ⟨_, .operand hd h, e⟩
    · exact .inr ⟨_, .amount rfl h, e⟩
    · exact .inr ⟨_, .store (.inr rfl) h, e⟩
  | writeMem b c d =>
    obtain ⟨_, hc, _⟩ := (wf_writeMem_iff b c d).mp hw
    rcases execWriteMem_cases b c d s with ⟨_, _, e⟩ | ⟨h, e⟩ | ⟨_, h, e⟩
    · exact .inl e
    · exact .inr ⟨_, .operand hc h, e⟩
    · exact .inr ⟨_, .store (.inl rfl) h, e⟩

/-- A step that ends FAULTED took the fault of a failed decode or of the decoded instruction. -/
theorem step_faulted_cases {s t : State} {prog : List Byte} (hp : s.prog = some prog) (h : step s = .next t)
    (hf : t.status.runState = .faulted) :
    (s.pc < prog.length ∧ ∃ e, decode prog s.pc = .error e ∧ t = takeFault (faultOfDecode e) s) ∨
      ∃ i f, decode prog s.pc = .ok i ∧ InstrFault i s f ∧ t = takeFault f s := by
  obtain ⟨hr, prog', hp', hc⟩ := step_cases h
  obtain rfl : prog' = prog := Option.some.inj (hp'.symm.trans hp)
  rcases hc with ⟨_, rfl⟩ | hfetch | ⟨_, i, hd, hx⟩
  · exact nomatch hf
  · exact .inl hfetch
  · rcases exec_instrFault_cases (wf_of_decode_ok hd) s with e | ⟨f, hfault, e⟩
    · obtain rfl := Host.Outcome.next.inj (hx.symm.trans e)
      exact nomatch hr.symm.trans hf
    · exact .inr ⟨i, f, hd, hfault, Host.Outcome.next.inj (hx.symm.trans e)⟩

/-- Settles O39: a fault of fetch is one of the first two rows, a fault of an instruction one of the last two; a direct
operand is below 64, so with `MEM_SIZE` at least 64 an address out of bounds is a computed destination. -/
theorem faultRecordFollowsTheTable : Obligations.FaultRecordFollowsTheTable := by
  refine ⟨⟨rfl, rfl, rfl, rfl, rfl⟩, fun s t prog hp h hf => ?_⟩
  rcases step_faulted_cases hp h hf with ⟨hpc, e, hd, rfl⟩ | ⟨i, f, hd, hfault, rfl⟩
  · obtain ⟨byte, hb, ⟨hnibble, rfl⟩ | ⟨hnibble, hl, rfl⟩⟩ := decode_error_cases hpc hd
    · exact .inl ⟨byte, hb, hnibble, rfl, rfl⟩
    · obtain ⟨hleft, hleft3⟩ := (recordOk_truncatedInstruction _ _).mp (recordOk_faultOfDecode 0 hpc hd)
      exact .inr (.inl ⟨byte, hb, hnibble, hl, rfl, rfl, hleft, hleft3⟩)
  · refine .inr (.inr ?_)
    cases hfault with
    | operand hfield ha => exact .inl ⟨i, hd, rfl, ha, fun hsize => absurd (hsize.trans ha) (Nat.not_le.mpr hfield)⟩
    | store hkind hdst => exact .inl ⟨i, hd, rfl, hdst, fun _ => ⟨rfl, hkind⟩⟩
    | amount hi hamount => exact .inr ⟨_, _, _, hi ▸ hd, hamount, rfl, rfl⟩

end Sys2Proof.Machine
end

section
/-! ## The terminal states -/

namespace Sys2Proof.Machine

theorem load_of_not_idle {s : State} (h : s.status.runState ≠ .idle) (bytes : List Byte) :
    load bytes s = .error (.notIdle s.status.runState) := if_pos h

theorem start_of_not_idle {s : State} (h : s.status.runState ≠ .idle) :
    start s = .error (.notIdle s.status.runState) := if_pos h

/-- Settles O41: a stopped engine is not RUNNING, so it has no step, and not IDLE, so load and start are refused. -/
theorem stoppedEngineLeavesOnlyByReset : Obligations.StoppedEngineLeavesOnlyByReset := by
  intro s hstopped
  have hrunning : s.status.runState ≠ .running := by rcases hstopped with h | h <;> simp [h]
  have hidle : s.status.runState ≠ .idle := by rcases hstopped with h | h <;> simp [h]
  refine ⟨fun t h => ?_, fun bytes => ⟨_, load_of_not_idle hidle bytes⟩, ⟨_, start_of_not_idle hidle⟩, rfl,
    fun _ => rfl⟩
  exact nomatch (step_of_not_running hrunning).symm.trans h

end Sys2Proof.Machine
end

/-! # The family 70_reset_and_hazards.md: what the next instruction sees, reset, and the host's operations -/

section
/-! ## A store and the instruction after it -/

namespace Sys2Proof.Machine

/-- An instruction that ends outside FAULTED has stored its result below `MEM_SIZE`. -/
theorem eq_written_of_not_faulted {i : Instr} {s t : State} (h : exec i s = .next t)
    (hf : t.status.runState ≠ .faulted) :
    destination i s < s.config.memSize ∧ t = written (destination i s) (resultOf i s) i.length s := by
  rcases exec_cases i s with ⟨_, hdst, e⟩ | ⟨_, _, e⟩
  · exact ⟨hdst, Host.Outcome.next.inj (h.symm.trans e)⟩
  · obtain rfl := Host.Outcome.next.inj (h.symm.trans e)
    exact absurd rfl hf

/-- With its sources and its destination in bounds an instruction leaves its result in its destination. -/
theorem exec_stores_result (i : Instr) {s : State} (hwf : Memory.wf s.mem) (hsrc : sourcesInBounds i s)
    (hdst : destination i s < s.config.memSize) :
    ∃ t, exec i s = .next t ∧ t.cell (destination i s) = resultOf i s := by
  obtain ⟨t, ht, hcell, _⟩ := exec_completes i hwf hsrc hdst
  exact ⟨t, ht, hcell⟩

/-- Settles O29: after the store the cell holds the result, so each way of reading it is the store of one next
instruction from `t`; an instruction with another destination leaves the cell. -/
theorem storeIsVisibleToTheNextInstruction : Obligations.StoreIsVisibleToTheNextInstruction := by
  intro i s t hwf h hf
  obtain ⟨hdst, ht⟩ := eq_written_of_not_faulted h hf
  have hconfig : t.config = s.config := by rw [ht, written_config]
  have hcell : t.cell (destination i s) = resultOf i s := by rw [ht, written_cell_same _ _ _ s hwf]
  have hwft : Memory.wf t.mem := by
    rw [ht, written_mem]
    exact Memory.wf_set hwf _ _
  rw [← hconfig] at hdst ⊢
  rw [← hcell]
  generalize destination i s = a at hdst ⊢
  refine ⟨rfl, fun e he => ?moved, fun b d hbd => ?stored, fun c d hc hd hptr hamount => ?rotated,
    fun b d hb hd hptr hamount => ?pointer, fun b c hb hc hptr hamount => ?amount,
    fun _ _ hu hne => exec_cell_of_ne hu hne.symm⟩
  case moved => exact exec_stores_result (.readMem a e) hwft hdst he
  case stored => exact exec_stores_result (.writeMem b a d) hwft hdst hbd
  case rotated => exact exec_stores_result (.shiftRight a c d) hwft ⟨hdst, hc, hd, hamount⟩ hptr
  case pointer => exact exec_stores_result (.shiftRight b a d) hwft ⟨hb, hdst, hd, hamount⟩ hptr
  case amount => exact exec_stores_result (.shiftRight b c a) hwft ⟨hb, hc, hdst, hamount⟩ hptr

end Sys2Proof.Machine
end

section
/-! ## The dump -/

namespace Sys2Proof.Machine

/-- The dumped cells are the addresses of a range, each beside its value. -/
theorem cellsFrom_eq_map (s : State) (first n : Nat) :
    cellsFrom s first n = (List.range' first n).map fun a => (a, s.cell a) := by
  induction n generalizing first with
  | zero => rfl
  | succ n ih => rw [cellsFrom, ih, List.range'_succ, List.map_cons]

@[simp] theorem cellsFrom_length (s : State) (first n : Nat) : (cellsFrom s first n).length = n := by
  simp [cellsFrom_eq_map]

theorem mem_cellsFrom_iff (s : State) (first n a v : Nat) :
    (a, v) ∈ cellsFrom s first n ↔ first ≤ a ∧ a < first + n ∧ v = s.cell a := by
  simp only [cellsFrom_eq_map, List.mem_map, Prod.mk.injEq, List.mem_range'_1]
  constructor
  · rintro ⟨_, ⟨hfirst, hlast⟩, rfl, rfl⟩
    exact ⟨hfirst, hlast, rfl⟩
  · rintro ⟨hfirst, hlast, rfl⟩
    exact ⟨a, ⟨hfirst, hlast⟩, rfl, rfl⟩

theorem dump_of_lt {s : State} {last : Nat} (h : s.status.runState = .halted) (hl : last < s.config.memSize)
    (first : Nat) : dump first last s = .ok (cellsFrom s first (last + 1 - first)) := by
  rw [dump, if_neg (not_not.mpr h), if_neg (Nat.not_le.mpr hl)]

theorem dump_of_le {s : State} {last : Nat} (h : s.status.runState = .halted) (hl : s.config.memSize ≤ last)
    (first : Nat) : dump first last s = .error (.dumpRange last) := by
  rw [dump, if_neg (not_not.mpr h), if_pos hl]

theorem dump_of_not_halted {s : State} (h : s.status.runState ≠ .halted) (first last : Nat) :
    dump first last s = .error (.notHalted s.status.runState) := if_pos h

/-- Settles O47: the bound on `last` decides whether the dump is answered, and `last + 1 - first` is its length, 0 for
`first` above `last`. -/
theorem dumpMapsTheRange : Obligations.DumpMapsTheRange := by
  refine fun s first last => ⟨fun h hle hl => ⟨_, dump_of_lt h hl first, ?length, fun a v => ?entries⟩,
    fun h hlt hl => ?empty, fun h _ hl => ⟨_, dump_of_le h hl first⟩, fun h => ⟨_, dump_of_not_halted h first last⟩⟩
  case length =>
    rw [cellsFrom_length]
    omega
  case entries =>
    rw [mem_cellsFrom_iff]
    omega
  case empty => rw [dump_of_lt h hl, Nat.sub_eq_zero_of_le hlt, cellsFrom]

end Sys2Proof.Machine
end

section
/-! ## Reset, load, start and the status read -/

namespace Sys2Proof.Machine

theorem load_of_lt {bytes : List Byte} {s : State} (h : s.status.runState = .idle)
    (hl : bytes.length < Config.progLenLimit) : load bytes s = .ok { s with prog := some bytes } := by
  rw [load, if_neg (not_not.mpr h), if_pos hl]

theorem load_of_le {bytes : List Byte} {s : State} (h : s.status.runState = .idle)
    (hl : Config.progLenLimit ≤ bytes.length) : load bytes s = .error (.programTooLong bytes.length) := by
  rw [load, if_neg (not_not.mpr h), if_neg (Nat.not_lt.mpr hl)]

theorem start_of_loaded {s : State} {bytes : List Byte} (h : s.status.runState = .idle) (hp : s.prog = some bytes) :
    start s = .ok { s with status := { s.status with runState := .running } } := by
  rw [start, if_neg (not_not.mpr h), hp]

/-- A refusal outside IDLE comes before the refusal of a start with nothing loaded; both leave no start. -/
theorem start_of_not_loaded {s : State} (hp : s.prog = none) : ∃ r, start s = .error r := by
  by_cases h : s.status.runState = .idle
  · exact ⟨.programNotLoaded, by rw [start, if_neg (not_not.mpr h), hp]⟩
  · exact ⟨_, start_of_not_idle h⟩

theorem readStatus_of_running {s : State} (h : s.status.runState = .running) :
    readStatus s = .error .runInProgress := if_pos h

theorem readStatus_of_not_running {s : State} (h : s.status.runState ≠ .running) :
    readStatus s = .ok (s.status, s.pc) := if_neg h

/-- Settles O42: reset is made of the parameters alone; that nothing else leaves a terminal state is O41. -/
theorem resetGivesTheResetValues : Obligations.ResetGivesTheResetValues := by
  refine ⟨fun _ => ⟨fun _ => rfl, rfl, rfl, rfl, rfl⟩, fun _ _ h => congrArg State.resetWith h, rfl,
    fun s hstopped => ?_⟩
  obtain ⟨hstep, hload, hstart, _⟩ := stoppedEngineLeavesOnlyByReset s hstopped
  exact ⟨hstep, hload, hstart⟩

/-- Settles O43: the run state, then the length decide; an accepted load sets the program buffer only. -/
theorem loadPlacesTheBinary : Obligations.LoadPlacesTheBinary :=
  fun bytes _ => ⟨fun h _ hl => ⟨_, load_of_lt h hl, rfl, rfl, rfl, rfl, rfl, rfl⟩,
    fun h hl => ⟨_, load_of_le h hl⟩, fun h => ⟨_, load_of_not_idle h bytes⟩⟩

/-- Settles O45: an accepted start sets the run state only, so a run begins in the reset state with its program. -/
theorem startChangesOnlyTheRunState : Obligations.StartChangesOnlyTheRunState := by
  refine ⟨fun _ _ h hp => ⟨_, start_of_loaded h hp, rfl, rfl, rfl, rfl, rfl⟩,
    fun _ h => ⟨_, start_of_not_idle h⟩, fun _ hp => start_of_not_loaded hp, fun _ _ _ h => ?_⟩
  obtain rfl := boot_ok h
  exact ⟨rfl, rfl, rfl, fun _ => rfl⟩

/-- Settles O46: RUNNING is neither IDLE nor HALTED, which load, start and dump ask for, and is the one run state the
read refuses. -/
theorem hostHasNoMoveDuringARun : Obligations.HostHasNoMoveDuringARun := by
  refine fun s => ⟨fun hr => ?_, readStatus_of_not_running⟩
  have hidle : s.status.runState ≠ .idle := by simp [hr]
  have hhalted : s.status.runState ≠ .halted := by simp [hr]
  exact ⟨fun bytes => ⟨_, load_of_not_idle hidle bytes⟩, ⟨_, start_of_not_idle hidle⟩,
    fun first last => ⟨_, dump_of_not_halted hhalted first last⟩, _, readStatus_of_running hr⟩

end Sys2Proof.Machine
end

/-! # The remaining statements: the four formats, the rotate function, the bound of a run and the cell width -/

section
/-! ## The fields of the wire word and the bytes of the wire form -/

namespace Sys2Proof
open Machine

/-- Settles O1: closed words, decoded by evaluation. -/
theorem wordsOfTheTestVectorsDecode : Obligations.WordsOfTheTestVectorsDecode :=
  ⟨rfl, rfl, rfl, rfl, rfl, rfl⟩

/-- The decoder's field extraction, applied to the wire word, gives back the instruction (R75). -/
theorem fieldsOf_wireWord {i : Instr} (h : i.wf) : fieldsOf i.kind (conceptualWord i.kind (wireWord i)) = i :=
  (fieldsOf_eq_iff h (wireWord_mod_sixteen h)).mpr (Nat.mod_eq_of_lt (wireWord_lt h))

theorem bits_nibble_wireWord {i : Instr} (h : i.wf) : bits (wireWord i) 3 0 = opcodeOf i.kind := by
  rw [← wireWord_mod_sixteen h]
  exact Nat.and_two_pow_sub_one_eq_mod _ 4

theorem bits_eq_zero_of_lt {w lo : Nat} (h : w < 2 ^ lo) (hi : Nat) : bits w hi lo = 0 := by
  rw [bits_eq, Nat.div_eq_of_lt h, Nat.zero_mod]

theorem wireWord_lt_two_pow_32 {i : Instr} (h : i.wf) : wireWord i < 2 ^ 32 :=
  (wireWord_lt h).trans_le (Nat.pow_le_pow_right two_pos (by cases i.kind <;> decide))

/-- The wire form is the one byte string of its length that spells the wire word. -/
theorem wireForm_eq_of_le {i : Instr} {bytes : List Byte} (h : i.wf) (hlen : bytes.length = i.length)
    (hle : le bytes = fieldSum i) : wireForm i = bytes := by
  rw [wireForm, wireWord_eq_fieldSum h, ← hle, ← hlen, leBytes_le]

/-- A byte made of two fields: OR is addition. -/
theorem shiftLeft_or {x n : Nat} (h : x < 2 ^ n) (y : Nat) : y <<< n ||| x = x + y * 2 ^ n := by
  rw [Nat.or_comm, or_shiftLeft h]

/-- Settles O4: the fields are the decoder's, the bytes spell the sum of the fields. -/
theorem loadConstFormat : Obligations.LoadConstFormat := by
  intro b c h
  obtain ⟨hb, hc⟩ := (wf_loadConst_iff b c).mp h
  obtain ⟨hB, hC⟩ := Instr.loadConst.inj (fieldsOf_wireWord h)
  refine ⟨wireWord_lt_two_pow_32 h, bits_nibble_wireWord h, hB, hC, bits_eq_zero_of_lt (wireWord_lt h) 31,
    wireForm_eq_of_le h rfl ?_⟩
  rw [shiftLeft_or (n := 4) (show 0xB < 2 ^ 4 by decide), shiftLeft_or (bits_lt b 20 20)]
  simp only [le, BitVec.toNat_ofNat, bits_eq, fieldSum]
  omega

/-- Settles O5: as for LOAD_CONST, with the reserved bits above bit 21. -/
theorem shiftRightFormat : Obligations.ShiftRightFormat := by
  intro b c d h
  obtain ⟨hb, hc, hd⟩ := (wf_shiftRight_iff b c d).mp h
  obtain ⟨hB, hC, hD⟩ := Instr.shiftRight.inj (fieldsOf_wireWord h)
  refine ⟨wireWord_lt_two_pow_32 h, bits_nibble_wireWord h, hB, hC, hD, bits_eq_zero_of_lt (wireWord_lt h) 31,
    wireForm_eq_of_le h rfl ?_⟩
  rw [shiftLeft_or (n := 4) (show 0xD < 2 ^ 4 by decide), shiftLeft_or (bits_lt b 5 4)]
  simp only [le, BitVec.toNat_ofNat, bits_eq, fieldSum]
  omega

/-- Settles O6: as for LOAD_CONST, with the reserved bits above bit 27. -/
theorem writeMemFormat : Obligations.WriteMemFormat := by
  intro b c d h
  obtain ⟨hb, hc, hd⟩ := (wf_writeMem_iff b c d).mp h
  obtain ⟨hB, hC, hD⟩ := Instr.writeMem.inj (fieldsOf_wireWord h)
  refine ⟨wireWord_lt_two_pow_32 h, bits_nibble_wireWord h, hB, hC, hD, bits_eq_zero_of_lt (wireWord_lt h) 31,
    wireForm_eq_of_le h rfl ?_⟩
  rw [shiftLeft_or (n := 4) (show 0xF < 2 ^ 4 by decide), shiftLeft_or (bits_lt b 5 4)]
  simp only [le, BitVec.toNat_ofNat, bits_eq, fieldSum]
  omega

/-- The conceptual word of READ_MEM is its half-word in the upper half and nothing in the lower (R64, conflict C5). -/
theorem packedWord_readMem (b c : Nat) : packedWord (.readMem b c) = wireWord (.readMem b c) <<< 16 := by
  have hpacked : packedWord (.readMem b c) = (b <<< 4 ||| c <<< 10) <<< 16 := by
    rw [Nat.shiftLeft_or_distrib, ← Nat.shiftLeft_add, ← Nat.shiftLeft_add, packedWord, Nat.zero_or]
  rw [show wireWord (.readMem b c) = packedWord (.readMem b c) >>> 16 from rfl, hpacked, Nat.shiftLeft_shiftRight]

theorem head?_wireForm (i : Instr) : (wireForm i).head? = some (BitVec.ofNat 8 (wireWord i)) := by cases i <;> rfl

/-- The nibble the decoder reads in the first byte on the wire is the opcode, for READ_MEM too (decision D7). -/
theorem opcodeNibble_head_wireForm {i : Instr} (h : i.wf) {first : Byte} (hf : first ∈ (wireForm i).head?) :
    opcodeNibble first = opcodeOf i.kind := by
  rw [head?_wireForm] at hf
  obtain rfl := Option.some.inj hf
  rw [opcodeNibble_eq, BitVec.toNat_ofNat, Nat.mod_mod_of_dvd _ (by decide), wireWord_mod_sixteen h]

/-- Settles O7: the half-word has the decoder's fields, the conceptual word has them 16 bits higher. -/
theorem readMemFormat : Obligations.ReadMemFormat := by
  intro b c h
  obtain ⟨hb, hc⟩ := (wf_readMem_iff b c).mp h
  have hfields := fieldsOf_wireWord h
  have hword : wireWord (.readMem b c) < 2 ^ 16 := wireWord_lt h
  have hnibble : wireWord (.readMem b c) % 16 = 0 := wireWord_mod_sixteen h
  obtain ⟨hB, hC⟩ := Instr.readMem.inj hfields
  obtain ⟨hB', hC'⟩ := Instr.readMem.inj ((fieldsOf_readMem _).symm.trans hfields)
  rw [packedWord_readMem]
  refine ⟨?bound, ?opcode, ?gap, hB, hC, ?upper, bits_nibble_wireWord h, hB', hC', wireForm_eq_of_le h rfl ?bytes,
    fun first hf => opcodeNibble_head_wireForm h hf⟩
  case bound => rw [Nat.shiftLeft_eq]; omega
  case opcode => rw [bits_eq, Nat.shiftLeft_eq]; omega
  case gap => rw [bits_eq, Nat.shiftLeft_eq]; omega
  case upper => rw [bits_eq, Nat.shiftLeft_eq]; omega
  case bytes =>
    rw [Nat.shiftLeft_eq, shiftLeft_or (bits_lt b 5 4)]
    simp only [le, BitVec.toNat_ofNat, bits_eq, fieldSum]
    omega

end Sys2Proof
end

section
/-! ## The rotate function -/

namespace Sys2Proof.Machine

/-- The masked term of the formula keeps the low `n` bits of `v` and moves them up (R141). -/
theorem shiftLeft_and_mask (v : Nat) {n : Nat} (h : n ≤ 16) : v <<< (16 - n) &&& 0xFFFF = (v % 2 ^ n) <<< (16 - n) := by
  have hsplit : 2 ^ 16 = 2 ^ n * 2 ^ (16 - n) := by rw [← pow_add, Nat.add_sub_cancel' h]
  rw [Nat.and_two_pow_sub_one_eq_mod _ 16, hsplit, Nat.shiftLeft_eq, Nat.shiftLeft_eq, Nat.mul_mod_mul_right]

theorem rot_eq (v : Nat) {n : Nat} (h : n ≤ 16) : rot v n = v >>> n ||| (v % 2 ^ n) <<< (16 - n) := by
  rw [rot, shiftLeft_and_mask v h]

theorem shiftRight_lt_two_pow {v w n : Nat} (hv : v < 2 ^ w) (h : n ≤ w) : v >>> n < 2 ^ (w - n) := by
  rw [Nat.shiftRight_eq_div_pow]
  apply Nat.div_lt_of_lt_mul
  rwa [← pow_add, Nat.add_sub_cancel' h]

/-- Settles O30: the masked term is the only difference between the two forms. -/
theorem rotateEqualForm : Obligations.RotateEqualForm :=
  fun v _ h => ⟨rfl, shiftLeft_and_mask v h, rot_eq v h⟩

theorem rot_zero (v : Nat) : rot v 0 = v := by
  rw [rot_eq v (Nat.zero_le 16), pow_zero, Nat.mod_one, Nat.zero_shiftLeft, Nat.or_zero, Nat.shiftRight_zero]

theorem rot_sixteen_of_lt {v : Nat} (h : v < 2 ^ 16) : rot v 16 = v := by
  rw [rot_eq v le_rfl, Nat.mod_eq_of_lt h, Nat.shiftRight_eq_div_pow, Nat.div_eq_of_lt h, Nat.zero_or]
  rfl

/-- Settles O32: at 0 the masked term is empty, at 16 it is the low half unmoved. -/
theorem rotateAtTheEndsOfTheRange : Obligations.RotateAtTheEndsOfTheRange :=
  fun v => ⟨rot_zero v, rfl, rot_sixteen_of_lt⟩

/-- A rotation to the right of `BitVec`, by an amount below the width, is the formula of R141. -/
theorem toNat_rotateRight_eq_rot {v n : Nat} (hv : v < 2 ^ 16) (hn : n < 16) :
    ((BitVec.ofNat 16 v).rotateRight n).toNat = rot v n := by
  rw [BitVec.toNat_rotateRight, BitVec.toNat_ofNat, Nat.mod_eq_of_lt hv, Nat.mod_eq_of_lt hn, rot,
    Nat.and_two_pow_sub_one_eq_mod _ 16]

/-- Settles O31: below 16 the formula is that of `BitVec`, and 16 acts as 0; the shifted term lies below bit `16 - s`,
the masked one from there up. -/
theorem rotateIsRotationOnSixteenBits : Obligations.RotateIsRotationOnSixteenBits := by
  intro v n hv hn
  refine ⟨?rotation, ?bound, ?sum⟩
  case rotation =>
    rw [toNat_rotateRight_eq_rot hv (Nat.mod_lt n (by decide))]
    obtain hlt | rfl := Nat.lt_or_eq_of_le hn
    · rw [Nat.mod_eq_of_lt hlt]
    · rw [rot_sixteen_of_lt hv, Nat.mod_self, rot_zero]
  case bound => exact Nat.or_lt_two_pow ((Nat.shiftRight_le v n).trans_lt hv) (Nat.and_lt_two_pow _ (by decide))
  case sum =>
    rw [rot_eq v hn, shiftLeft_and_mask v hn, or_shiftLeft (shiftRight_lt_two_pow hv hn), Nat.shiftLeft_eq]

/-- Settles O33: the shifted term has `21 - s` bits, the masked one 16. -/
theorem rotateStaysBelowTwoToTheTwentyOne : Obligations.RotateStaysBelowTwoToTheTwentyOne := by
  intro v n hv hn
  refine ⟨rot_lt hv n, ?_⟩
  have hshifted : v >>> n < 2 ^ (21 - n) := shiftRight_lt_two_pow hv (by omega)
  have hmasked : v <<< (16 - n) &&& 0xFFFF < 2 ^ 16 := Nat.and_lt_two_pow _ (by decide)
  rw [← (pow_right_mono₀ (one_le_two (α := Nat))).map_max]
  exact Nat.or_lt_two_pow (hshifted.trans_le (Nat.pow_le_pow_right two_pos (le_max_right _ _)))
    (hmasked.trans_le (Nat.pow_le_pow_right two_pos (le_max_left _ _)))

end Sys2Proof.Machine
end

section
/-! ## The bound of a run -/

namespace Sys2Proof.Machine

/-- What every step keeps holds after a run of any number of steps. -/
theorem run_keeps {P : State → Prop} (hstep : ∀ s t, P s → step s = .next t → P t) :
    ∀ (k : Nat) {s : State}, P s → P (run k s)
  | 0, _, h => h
  | k + 1, s, h => by
    cases hs : step s with
    | next t =>
      rw [run_succ_of_step hs]
      exact run_keeps hstep k (hstep s t h hs)
    | fault _ => simpa [run, hs] using h
    | refused _ => simpa [run, hs] using h

theorem run_inv (k : Nat) {s : State} (h : s.inv) : (run k s).inv := run_keeps stepKeepsTheInvariant k h

theorem run_prog (k : Nat) (s : State) : (run k s).prog = s.prog :=
  run_keeps (P := fun t => t.prog = s.prog) (fun _ _ h hs => (programNeverChanges _ _ hs).1.trans h) k rfl

theorem run_progLen (k : Nat) (s : State) : (run k s).progLen = s.progLen := by
  rw [State.progLen, run_prog, State.progLen]

/-- No step leads to IDLE: only reset does (R175, R190). -/
theorem step_not_idle {s t : State} (h : step s = .next t) : t.status.runState ≠ .idle := by
  obtain ⟨hr, _, _, ⟨_, rfl⟩ | ⟨_, _, rfl⟩ | ⟨_, _, _, _, rfl⟩⟩ := step_outcomes h
  · simp
  · simp
  · simp [hr]

theorem run_not_idle (k : Nat) {s : State} (h : s.status.runState ≠ .idle) : (run k s).status.runState ≠ .idle :=
  run_keeps (P := fun t => t.status.runState ≠ .idle) (fun _ _ _ hs => step_not_idle hs) k h

/-- A step that stays RUNNING has executed an instruction, of at least 2 bytes (R71, R105). -/
theorem pc_add_two_le_of_step_running {s t : State} (h : step s = .next t) (hr : t.status.runState = .running) :
    s.pc + 2 ≤ t.pc := by
  obtain ⟨_, _, _, _, hpc⟩ := (pcAdvancesByTheEncodedLength s t h).1 hr
  split_ifs at hpc <;> omega

theorem running_of_run_running {k : Nat} {s : State} (h : (run k s).status.runState = .running) :
    s.status.runState = .running := by
  by_contra hn
  exact hn (run_of_not_running hn k ▸ h)

/-- An engine still RUNNING after `k` steps has executed an instruction in each of them. -/
theorem pc_add_le_of_run_running {prog : List Byte} :
    ∀ (k : Nat) {s : State}, s.prog = some prog → (run k s).status.runState = .running →
      s.pc + 2 * k ≤ (run k s).pc
  | 0, _, _, _ => le_rfl
  | k + 1, s, hp, h => by
    obtain ⟨t, ht⟩ := exists_step (running_of_run_running h) hp
    rw [run_succ_of_step ht] at h ⊢
    have hfirst := pc_add_two_le_of_step_running ht (running_of_run_running h)
    have hrest := pc_add_le_of_run_running k ((programNeverChanges s t ht).1.trans hp) h
    omega

/-- Under the invariant `pc` stays inside the program, so it bounds the number of instructions executed (R105). -/
theorem le_half_progLen_of_run_running {s : State} (hinv : s.inv) {k : Nat}
    (h : (run k s).status.runState = .running) : k ≤ s.progLen / 2 := by
  obtain ⟨_, _, _, _, _, hprog⟩ := (inv_iff s).mp hinv
  obtain ⟨_, _, hsome, _⟩ := (programOk_iff s).mp hprog
  obtain ⟨prog, hp⟩ := Option.isSome_iff_exists.mp (hsome (by simp [running_of_run_running h]))
  obtain ⟨_, _, _, hpc, _⟩ := (inv_iff _).mp (run_inv k hinv)
  have hle := ((pcOk_iff _).mp hpc).2
  rw [run_progLen] at hle
  have hpath := pc_add_le_of_run_running k hp h
  omega

/-- Settles O21: past the bound the engine is not RUNNING, and no step has led it to IDLE. -/
theorem everyRunEndsWithinTheBound : Obligations.EveryRunEndsWithinTheBound := by
  intro s hinv hr
  refine ⟨fun _ => pc_add_two_le_of_step_running, fun _ => le_half_progLen_of_run_running hinv, ?_⟩
  have hidle : (run (s.progLen / 2 + 1) s).status.runState ≠ .idle := run_not_idle _ (by simp [hr])
  cases hend : (run (s.progLen / 2 + 1) s).status.runState with
  | idle => exact absurd hend hidle
  | running => exact absurd (le_half_progLen_of_run_running hinv hend) (Nat.not_succ_le_self _)
  | halted => exact .inl rfl
  | faulted => exact .inr rfl

end Sys2Proof.Machine
end

section
/-! ## The width of a cell is not observable -/

namespace Sys2Proof.Machine

/-- The same machine with another cell width. -/
def setWidth (width : Nat) (s : State) : State := { s with config := { s.config with cellWidth := width } }

/-- `f` on the state a step answers. -/
def mapNext (f : State → State) : Host.Outcome State Fault Refusal → Host.Outcome State Fault Refusal
  | .next s => .next (f s)
  | .fault r => .fault r
  | .refused r => .refused r

section SetWidth
variable (width : Nat) (s : State)

/-- Past a read or a rotation, which does not see the width, an effect goes on alike in both machines. -/
theorem settle_bind_setWidth (value : Except Fault Nat) {rest rest' : Nat → Except Fault State}
    (h : ∀ v, settle (setWidth width s) (rest' v) = mapNext (setWidth width) (settle s (rest v))) :
    settle (setWidth width s) (value >>= rest') = mapNext (setWidth width) (settle s (value >>= rest)) := by
  cases value with
  | error f => rfl
  | ok v => exact h v

theorem settle_store_setWidth (a v n : Nat) :
    settle (setWidth width s) (do
      let t ← memWrite a v (setWidth width s)
      pure (advance n t)) =
    mapNext (setWidth width) (settle s (do
      let t ← memWrite a v s
      pure (advance n t))) := by
  rcases memWrite_cases a v s with ⟨ha, e⟩ | ⟨ha, e⟩
  · rw [e, memWrite_of_lt v (by exact ha)]
    rfl
  · rw [e, memWrite_of_le v (by exact ha)]
    rfl

theorem exec_setWidth (i : Instr) : exec i (setWidth width s) = mapNext (setWidth width) (exec i s) := by
  cases i with
  | readMem b c =>
    exact settle_bind_setWidth width s (memRead b s) fun v => settle_store_setWidth width s c v 2
  | loadConst b c => exact settle_store_setWidth width s c b 4
  | shiftRight b c d =>
    exact settle_bind_setWidth width s (memRead b s) fun v => settle_bind_setWidth width s (memRead c s) fun dst =>
      settle_bind_setWidth width s (memRead d s) fun amount => settle_bind_setWidth width s (rotate v amount) fun r =>
        settle_store_setWidth width s dst r 4
  | writeMem b c d =>
    exact settle_bind_setWidth width s (memRead c s) fun v => settle_store_setWidth width s (b + d) v 4

/-- A step of the machine with another width is the step, with the other width (R29). -/
theorem step_setWidth : step (setWidth width s) = mapNext (setWidth width) (step s) := by
  by_cases hr : s.status.runState = .running
  · cases hp : s.prog with
    | none => simp [step, setWidth, hr, hp, mapNext]
    | some prog =>
      rcases fetch_cases prog s.pc with ⟨hl, _⟩ | ⟨hl, e, hd, _⟩ | ⟨_, i, hd, _⟩
      · rw [step_of_length_le hr hp hl, step_of_length_le (s := setWidth width s) hr hp hl]
        rfl
      · rw [step_of_decode_error hr hp hl hd, step_of_decode_error (s := setWidth width s) hr hp hl hd]
        rfl
      · rw [step_of_decode_ok hr hp hd, step_of_decode_ok (s := setWidth width s) hr hp hd, exec_setWidth]
  · rw [step_of_not_running hr, step_of_not_running (s := setWidth width s) hr]
    rfl

theorem run_setWidth (k : Nat) : run k (setWidth width s) = setWidth width (run k s) := by
  induction k generalizing s with
  | zero => rfl
  | succ k ih =>
    rw [run, run, step_setWidth]
    cases step s with
    | next t => exact ih t
    | fault _ => rfl
    | refused _ => rfl

end SetWidth

/-- Settles O51: the bound is the invariant's; the two runs begin in states that differ in the width only, and stay so. -/
theorem cellValuesStayBelowTwoToTheTwentyOne : Obligations.CellValuesStayBelowTwoToTheTwentyOne := by
  refine ⟨fun s hs a => ?_, fun memSize width width' bytes s s' t t' _ _ hs hs' ht ht' k => ?_⟩
  · obtain ⟨_, _, hcells, _⟩ := (inv_iff s).mp (reachableStatesMeetTheInvariant s hs)
    exact cell_lt_of_cellsOk hcells a
  · obtain ⟨_, rfl⟩ := powerOn_ok hs
    obtain ⟨_, rfl⟩ := powerOn_ok hs'
    have hwidth : t' = setWidth width' t := by
      rw [boot_ok ht, boot_ok ht']
      rfl
    rw [hwidth, run_setWidth]
    exact ⟨rfl, rfl, rfl⟩

end Sys2Proof.Machine
end

section
/-! ## A further load before the start -/

namespace Sys2Proof.Machine

/-- Settles O44: load looks at the run state and the length, not at what is loaded, and leaves IDLE for the start. -/
theorem lastLoadBeforeStartCounts : Obligations.LastLoadBeforeStartCounts :=
  fun _ _ _ hidle _ hl => ⟨_, _, load_of_lt hidle hl, rfl, rfl, rfl, rfl, rfl, rfl, start_of_loaded hidle rfl, rfl⟩

end Sys2Proof.Machine
end
